-- ==== Sys2Proof/Word.lean ====
section
/-! DEFINITION. The word types of the toy-vpn CORE (00_scope.md section 5.1): a byte is 8 bits, a word is a
16-bit checksum word, a bus value or command word is 32 bits. Every quantity is unsigned. -/

namespace Sys2Proof

/-- A byte (the source's octet): 8 bits. -/
abbrev Byte := BitVec 8

/-- A checksum word: 16 bits (R6). -/
abbrev Word := BitVec 16

/-- A 32-bit value of the register bus (R16), and the command word written to CMD (R60). -/
abbrev BusWord := BitVec 32

end Sys2Proof
end

