-- ==== Sys2Proof/Config.lean ====
section
/-! DEFINITION. What is fixed when the CORE is built (00_scope.md R6), and the values the spec leaves open.
An open value is a constant without a body: no proof can see what it is. -/

namespace Sys2Proof.Config

/-- `BUF_MAX`, the capacity of each of the three buffers in bytes (R6, R22). -/
abbrev bufMax : Nat := 65535

/-- `CSUM_MAX_WORDS`, the longest word sequence `checksum` is defined on (R6, R92). -/
abbrev csumMaxWords : Nat := 65537

/-- `UDP_ZERO_SUBST`, the one open parameter that changes behaviour (R163, 92_eei_decisions.md D15).
Log entry 6. -/
opaque udpZeroSubst : Bool

/-- What `checksum` answers for more than `CSUM_MAX_WORDS` words, where the spec defines nothing
(R92, 93_implementation_defined.md U1). No command reaches it (R96). Log entry 7. -/
opaque longChecksum : List Word → Word

/-- The value register number `reg` is found with after hardware reset number `n`, where the spec leaves it
unspecified (R30, U6); a register keeps its low bits. Log entry 5. -/
opaque drawReg : (n : Nat) → (reg : Nat) → BusWord

/-- The byte that offset `off` of buffer `buf` (0 RXBUF, 1 TXBUF, 2 PAYBUF) is found with after hardware
reset number `n` (R30, U6). Log entry 5. -/
opaque drawByte : (n : Nat) → (buf : Nat) → (off : Nat) → Byte

/-- Where the platform puts the register space (R49); read by no rule. Log entry 8. -/
opaque coreRegBase : Nat

/-- Where the platform puts RXBUF (R49); read by no rule. Log entry 8. -/
opaque coreRxBase : Nat

/-- Where the platform puts TXBUF (R49); read by no rule. Log entry 8. -/
opaque coreTxBase : Nat

/-- Where the platform puts PAYBUF (R49); read by no rule. Log entry 8. -/
opaque corePayBase : Nat

end Sys2Proof.Config
end

