-- ==== Sys2Proof/Syntax.lean ====
section
/-! DEFINITION. The instruction set: the ten commands of 30_encoding.md R62, one constructor per row of
spec/opcode_table.json. Format Z has no operand field (R60, R61), so no constructor has an argument. -/

namespace Sys2Proof

/-- The ten commands (R62). -/
inductive Instr where
  /-- CSUM: checksum of a byte range of one buffer (R100). -/
  | csum
  /-- IP4DEC: decode the IPv4 header at the start of RXBUF (R111). -/
  | ip4dec
  /-- IP4ENC: write the 20 fixed header bytes to TXBUF (R115). -/
  | ip4enc
  /-- UDPDEC: decode the UDP header and copy the payload out of the slice (R131). -/
  | udpdec
  /-- UDPENC: write the UDP header and payload into TXBUF at SL_OFF (R135). -/
  | udpenc
  /-- SLICE: compute the payload slice from the decoded IPv4 header (R152). -/
  | slice
  /-- XFORM: swap the endpoints and recompute both checksums (R160). -/
  | xform
  /-- ECHO: the whole pipeline (R170). -/
  | echo
  /-- OPTCPY: carry the bytes between the fixed IPv4 header and the UDP header (R158). -/
  | optcpy
  /-- SRST: soft reset (R186). -/
  | srst
  deriving DecidableEq, Repr

end Sys2Proof
end

