-- ==== Sys2Proof/WellFormed.lean ====
section
/-! DEFINITION. What is well formed: a command (always: format Z has no operand that could be out of range,
R60 and R61), a command word of format Z (R61), a byte range inside a buffer (R22, R185). -/

namespace Sys2Proof

/-- Every command is well formed: it carries no operand (R61). One line per constructor, so that a command
with an operand could not slip past. -/
def Instr.wellFormed : Instr → Bool
  | .csum => true
  | .ip4dec => true
  | .ip4enc => true
  | .udpdec => true
  | .udpenc => true
  | .slice => true
  | .xform => true
  | .echo => true
  | .optcpy => true
  | .srst => true

/-- A command word has format Z when its field `zero = c[31:8]` is 0 (R61). -/
def formatZ (c : BusWord) : Bool := c.extractLsb' 8 24 == 0#24

/-- The `n` bytes from offset `off` lie inside a buffer: offsets 0 to `BUF_MAX - 1` (R22). -/
def rangeInBuffer (off n : Nat) : Bool := decide (off + n ≤ Config.bufMax)

end Sys2Proof
end

