-- ==== Sys2Proof/Decode.lean ====
section
/-! DEFINITION. The decoder of command words, total and rejecting by name (R64, R65), then the encoder,
written from the opcode map of R62. -/

namespace Sys2Proof

/-- Why a word is no command (R64). -/
inductive DecodeError where
  /-- Bits 31:8 are not all zero (R61). -/
  | zeroFieldSet
  /-- `zero = 0` and the opcode is none of the ten: 0x00, 0x0A to 0x0E, 0x10 to 0xFF (R64). -/
  | unassignedOpcode
  deriving DecidableEq, Repr

/-- `opcode = c[7:0]` (R61). -/
def opcodeField (c : BusWord) : BitVec 8 := c.extractLsb' 0 8

/-- `zero = c[31:8]` (R61). -/
def zeroField (c : BusWord) : BitVec 24 := c.extractLsb' 8 24

/-- The opcode map (R62). -/
def decodeOpcode (op : BitVec 8) : Option Instr :=
  if op = 0x01#8 then some .csum
  else if op = 0x02#8 then some .ip4dec
  else if op = 0x03#8 then some .ip4enc
  else if op = 0x04#8 then some .udpdec
  else if op = 0x05#8 then some .udpenc
  else if op = 0x06#8 then some .slice
  else if op = 0x07#8 then some .xform
  else if op = 0x08#8 then some .echo
  else if op = 0x09#8 then some .optcpy
  else if op = 0x0F#8 then some .srst
  else none

/-- `decode(c)`: the command of R62 if `c` matches a row, illegal otherwise (R65). -/
def decode (c : BusWord) : Except DecodeError Instr :=
  if zeroField c = 0#24 then
    match decodeOpcode (opcodeField c) with
    | some i => .ok i
    | none => .error .unassignedOpcode
  else .error .zeroFieldSet

/-- The opcode of a command (R62). -/
def opcode : Instr → BitVec 8
  | .csum => 0x01#8
  | .ip4dec => 0x02#8
  | .ip4enc => 0x03#8
  | .udpdec => 0x04#8
  | .udpenc => 0x05#8
  | .slice => 0x06#8
  | .xform => 0x07#8
  | .echo => 0x08#8
  | .optcpy => 0x09#8
  | .srst => 0x0F#8

/-- The command word of a command: `zero` above its opcode (R61, R62). -/
def encode (i : Instr) : BusWord := 0#24 ++ opcode i

/-- The command word whose bits are `w` on the first `nbits` bits and 0 above, numbered as
spec/opcode_table.json numbers them: bit 0 is the least significant bit of the 32-bit command word
(R61). A command word is a value on the register bus, so no byte order enters (R42; log entry 12). -/
def tableWord (nbits w : Nat) : BusWord := BitVec.ofNat 32 (w % 2 ^ nbits)

/-- The instruction this decoder reads from an instruction whose bits are `w`. -/
def decodeTableWord (nbits w : Nat) : Option Instr :=
  match decode (tableWord nbits w) with
  | .ok i => some i
  | .error _ => none

end Sys2Proof
end

