-- ==== Sys2Proof/Machine/State.lean ====
section
/-! DEFINITION. The architectural state of the CORE (10_state.md R10) as plain data, the types of what the
host does to it, the reasons a step can stop, and the state after reset. -/

namespace Sys2Proof.Machine

/-- The three buffers (R22). -/
inductive BufId where
  | rx
  | tx
  | pay
  deriving DecidableEq, Repr

/-- The registers of the register map (R20), by name. -/
inductive Reg where
  | cmd | err | rxlen | txlen | paylen | slOff | slLen | csSel | csOff | csLen | csRes
  | ipVer | ipIhl | ipTos | ipTlen | ipId | ipFlags | ipFrag | ipTtl | ipProto | ipCsum | ipSrc | ipDst
  | udpSport | udpDport | udpLen | udpCsum
  deriving DecidableEq, Repr

/-- A buffer's bytes: the listed (offset, byte) pairs; what an unlisted offset reads as is
`Memory.unwritten` (Ops.lean). `Memory.wf` (Ops.lean) says the list is in its one canonical form. -/
structure Memory where
  cells : List Host.Cell
  deriving DecidableEq, Repr

/-- The twelve IPv4 field registers IP_VER .. IP_DST (R12); also the spec's field record `f` (R71). -/
structure IpFields where
  ver : BitVec 4
  ihl : BitVec 4
  tos : BitVec 8
  tlen : BitVec 16
  id : BitVec 16
  flags : BitVec 3
  frag : BitVec 13
  ttl : BitVec 8
  proto : BitVec 8
  csum : BitVec 16
  src : BitVec 32
  dst : BitVec 32
  deriving DecidableEq, Repr

/-- The four UDP field registers UDP_SPORT .. UDP_CSUM (R14); also the spec's record `u` (R74). -/
structure UdpFields where
  sport : BitVec 16
  dport : BitVec 16
  len : BitVec 16
  csum : BitVec 16
  deriving DecidableEq, Repr

/-- One thing the host does to the CORE between commands: the four transactions of 44_host_access.md
R180 to R183, and the hardware reset of 70_reset_and_hazards.md R230. Register numbers and offsets are
natural numbers: the host may name one that does not exist (R185). -/
inductive HostEvent where
  /-- `HRD(reg)`: read a register (R180). -/
  | hrd (reg : Nat)
  /-- `HWR(reg, v)`: write a register; a write to CMD runs a command (R181, R184). -/
  | hwr (reg : Nat) (v : BusWord)
  /-- `HBR(buf, off)`: read one byte of a buffer (R182). -/
  | hbr (buf : BufId) (off : Nat)
  /-- `HBW(buf, off, b)`: write one byte of a buffer (R183). -/
  | hbw (buf : BufId) (off : Nat) (b : Byte)
  /-- Hardware reset (R230). -/
  | reset
  deriving DecidableEq, Repr

/-- What a read returns to the host. -/
inductive HostReply where
  /-- The value of `HRD`, zero-extended to 32 bits (R180). -/
  | reg (v : BusWord)
  /-- The byte of `HBR` (R182). -/
  | byte (b : Byte)
  deriving DecidableEq, Repr

/-- The errors of the closed taxonomy, with the spec's own IllegalCommand (R200, R201). -/
inductive CoreError where
  | truncatedBuffer
  | invalidHeaderLength
  | invalidLength
  | illegalCommand
  deriving DecidableEq, Repr

/-- The state: R10's registers and buffers, then the model's own three fields (log entries 1, 2, 5). -/
structure State where
  rx : Memory
  tx : Memory
  pay : Memory
  err : BitVec 3
  rxlen : BitVec 16
  txlen : BitVec 16
  paylen : BitVec 16
  slOff : BitVec 16
  slLen : BitVec 16
  csSel : BitVec 2
  csOff : BitVec 16
  csLen : BitVec 16
  csRes : BitVec 16
  ip : IpFields
  udp : UdpFields
  /-- MODEL: the host's transactions still to come, oldest first. -/
  hostIn : List HostEvent
  /-- MODEL: what the host's reads have returned, oldest first. -/
  hostOut : List HostReply
  /-- MODEL: how many hardware resets have drawn free values. -/
  draws : Nat
  deriving DecidableEq, Repr

/-- No step of the CORE ends in a fault: "No command hangs and none is fatal" (R208); an error is a code in
ERR and the machine goes on (R206, R207). So there is no constructor (log entry 11). -/
inductive Fault where
  deriving DecidableEq, Repr

/-- Why a step is refused. -/
inductive Refusal where
  /-- Raised by `exec` for a command that has no meaning yet; safe: nothing can be proved of it. No arm
  raises it. -/
  | notModelled (mnemonic : String)
  /-- Raised by `HRD` and `HWR` of a reserved register number: "a model refuses it (gives it no step)"
  (R185). Safe. -/
  | reservedRegister (reg : Nat)
  /-- Raised by `HBR` and `HBW` of an offset of 65535 or more, "outside every buffer" (R185). Safe. -/
  | offsetOutsideBuffer (buf : BufId) (off : Nat)
  deriving DecidableEq, Repr

/-- The state right after reset (R30): the nine registers the spec zeroes are 0; CS_RES, the IP_ and UDP_
registers, which it leaves unspecified, are 0 by DESIGN CHOICE (log entry 3), and so is every buffer byte
(log entry 4). The model's own fields are empty (log entries 1, 2, 5). -/
def State.reset : State where
  rx := ⟨[]⟩
  tx := ⟨[]⟩
  pay := ⟨[]⟩
  err := 0
  rxlen := 0
  txlen := 0
  paylen := 0
  slOff := 0
  slLen := 0
  csSel := 0
  csOff := 0
  csLen := 0
  csRes := 0
  ip := { ver := 0, ihl := 0, tos := 0, tlen := 0, id := 0, flags := 0, frag := 0, ttl := 0, proto := 0,
          csum := 0, src := 0, dst := 0 }
  udp := { sport := 0, dport := 0, len := 0, csum := 0 }
  hostIn := []
  hostOut := []
  draws := 0

end Sys2Proof.Machine
end

