-- ==== Sys2Proof/Machine/Flags.lean ====
section
/-! DEFINITION. The only status of the CORE: the ERR register and its codes (R18, R201). There are no
arithmetic flags (R19). -/

namespace Sys2Proof.Machine

/-- The code of an error, as ERR stores it (R201). -/
def CoreError.code : CoreError → BitVec 3
  | .truncatedBuffer => 1
  | .invalidHeaderLength => 2
  | .invalidLength => 3
  | .illegalCommand => 4

/-- The code of success, `OK` (R201). -/
def okCode : BitVec 3 := 0

/-- `ERR <- code`, the last action of every command (R18). -/
def State.withErr (s : State) (code : BitVec 3) : State := { s with err := code }

end Sys2Proof.Machine
end

