-- ==== Sys2Proof/Machine/Ops.lean ====
section
/-! DEFINITION. The shared operations: reading and writing buffer bytes (20_memory.md), the buffers of a state,
what an error does to the state (60_exceptions.md R206) and how a command ends, hardware reset (R230). -/

namespace Sys2Proof.Machine

/-! ### One buffer -/

/-- What a byte that nothing has written reads as. The spec leaves it unspecified (R30, U6): DESIGN CHOICE,
log entry 4. -/
def Memory.unwritten : Byte := 0

/-- The byte at offset `off` of a list of cells. -/
def readCells (off : Nat) : List Host.Cell → Byte
  | [] => Memory.unwritten
  | (k, v) :: rest => if k = off then v else readCells off rest

/-- The list without any cell for offset `off`. -/
def eraseCells (off : Nat) : List Host.Cell → List Host.Cell
  | [] => []
  | (k, v) :: rest => if k = off then eraseCells off rest else (k, v) :: eraseCells off rest

/-- The list with a cell for offset `off` put before the first greater offset. -/
def insertCells (off : Nat) (b : Byte) : List Host.Cell → List Host.Cell
  | [] => [(off, b)]
  | (k, v) :: rest => if off < k then (off, b) :: (k, v) :: rest else (k, v) :: insertCells off b rest

/-- The list of cells in which offset `off` reads as `b`: no cell is kept for the unlisted value, so a list in
canonical form stays in canonical form. -/
def writeCells (off : Nat) (b : Byte) (cells : List Host.Cell) : List Host.Cell :=
  if b = Memory.unwritten then eraseCells off cells else insertCells off b (eraseCells off cells)

/-- Offsets strictly rising from `lo`, all below `BUF_MAX`, no byte equal to the unlisted one. -/
def cellsWf (lo : Nat) : List Host.Cell → Bool
  | [] => true
  | (k, v) :: rest =>
    decide (lo ≤ k) && decide (k < Config.bufMax) && decide (v ≠ Memory.unwritten) && cellsWf (k + 1) rest

/-- The canonical form of a buffer. -/
def Memory.wf (m : Memory) : Bool := cellsWf 0 m.cells

/-- `B[off]` (00_scope.md section 5.2). -/
def Memory.read (m : Memory) (off : Nat) : Byte := readCells off m.cells

/-- `B[off] <- b`. -/
def Memory.write (m : Memory) (off : Nat) (b : Byte) : Memory := ⟨writeCells off b m.cells⟩

/-- `B[off .. off+n)`, lowest offset first. -/
def Memory.readBytes (m : Memory) (off : Nat) : (n : Nat) → List Byte
  | 0 => []
  | n + 1 => m.read off :: m.readBytes (off + 1) n

/-- `B[off .. off+|bs|) <- bs`, byte by byte in increasing offset (R47). -/
def Memory.writeBytes (m : Memory) (off : Nat) : (bs : List Byte) → Memory
  | [] => m
  | b :: bs => (m.write off b).writeBytes (off + 1) bs

/-- `MemCopy(D, doff, S, soff, n)`: all reads before all writes (00_scope.md section 5.2). -/
def Memory.copyFrom (d : Memory) (doff : Nat) (src : Memory) (soff n : Nat) : Memory :=
  d.writeBytes doff (src.readBytes soff n)

/-! ### The buffers of a state -/

/-- The buffer a host transaction names (R182, R183). -/
def State.buffer (s : State) : BufId → Memory
  | .rx => s.rx
  | .tx => s.tx
  | .pay => s.pay

/-- The state with the named buffer replaced. -/
def State.withBuffer (s : State) (buf : BufId) (m : Memory) : State :=
  match buf with
  | .rx => { s with rx := m }
  | .tx => { s with tx := m }
  | .pay => { s with pay := m }

/-- The valid length of a buffer (R22). -/
def State.validLength (s : State) : BufId → BitVec 16
  | .rx => s.rxlen
  | .tx => s.txlen
  | .pay => s.paylen

/-! ### Errors and the end of a command -/

/-- The answer of a step of this machine. -/
abbrev Answer := Host.Outcome State Fault Refusal

/-- The pseudocode of a command without its final `ERR <- 0`: it raises an error, having written nothing, or
gives the state with its writes made (R206). -/
abbrev Body := State → Except CoreError State

/-- What an error does, the CORE's whole "exception entry": ERR becomes the code, nothing else changes, nothing
is saved and control goes nowhere (R206). The machine goes on with the next command, so there is no return
operation beside it: "There is no return instruction and nothing to restore" (R207). -/
def raiseError (e : CoreError) (s : State) : Answer := .next (s.withErr e.code)

/-- A command that succeeded: `ERR <- 0` (R18). -/
def succeed (s : State) : Answer := .next (s.withErr okCode)

/-- A standalone command: its body, then ERR (R18, R206). -/
def standalone (body : Body) (s : State) : Answer :=
  match body s with
  | .ok t => succeed t
  | .error e => raiseError e s

/-- Runs stages in list order up to the first that raises: the state as the completed stages left it, and the
error if one was raised (R170, R171, R174). -/
def runStages : List Body → State → State × Option CoreError
  | [], s => (s, none)
  | stage :: rest, s =>
    match stage s with
    | .ok t => runStages rest t
    | .error e => (s, some e)

/-! ### Reset -/

/-- The nine registers that hardware reset and SRST set to 0 (R30, R186, R232). -/
def zeroControl (s : State) : State :=
  { s with rxlen := 0, txlen := 0, paylen := 0, slOff := 0, slLen := 0, csSel := 0, csOff := 0, csLen := 0,
           err := 0 }

/-- The number under which `Config.drawByte` knows a buffer. -/
def BufId.number : BufId → Nat
  | .rx => 0
  | .tx => 1
  | .pay => 2

/-- A buffer whose every byte is the free value of hardware reset number `n` (R30, U6), in canonical form.
Irreducible, so that no proof lists its 65535 bytes. -/
@[irreducible] def drawBuffer (n : Nat) (buf : BufId) : Memory :=
  ⟨((List.range Config.bufMax).map fun off => (off, Config.drawByte n buf.number off)).filter
    fun c => c.2 ≠ Memory.unwritten⟩

/-- The IP_ registers after hardware reset number `n`: free values (R30), register numbers of R12. -/
def drawIp (n : Nat) : IpFields where
  ver := (Config.drawReg n 0x10).setWidth 4
  ihl := (Config.drawReg n 0x11).setWidth 4
  tos := (Config.drawReg n 0x12).setWidth 8
  tlen := (Config.drawReg n 0x13).setWidth 16
  id := (Config.drawReg n 0x14).setWidth 16
  flags := (Config.drawReg n 0x15).setWidth 3
  frag := (Config.drawReg n 0x16).setWidth 13
  ttl := (Config.drawReg n 0x17).setWidth 8
  proto := (Config.drawReg n 0x18).setWidth 8
  csum := (Config.drawReg n 0x19).setWidth 16
  src := Config.drawReg n 0x1A
  dst := Config.drawReg n 0x1B

/-- The UDP_ registers after hardware reset number `n`: free values (R30), register numbers of R14. -/
def drawUdp (n : Nat) : UdpFields where
  sport := (Config.drawReg n 0x20).setWidth 16
  dport := (Config.drawReg n 0x21).setWidth 16
  len := (Config.drawReg n 0x22).setWidth 16
  csum := (Config.drawReg n 0x23).setWidth 16

/-- Hardware reset (R230, R232): the nine registers are 0; CS_RES, the IP_ and UDP_ registers and every
buffer byte are free values, new ones at each reset (log entry 5). The host's transactions still to come, and
what its reads have returned, are the host's and stay (log entry 1). -/
def hardwareReset (s : State) : State :=
  { zeroControl s with
    csRes := (Config.drawReg s.draws 0x0A).setWidth 16
    ip := drawIp s.draws
    udp := drawUdp s.draws
    rx := drawBuffer s.draws .rx
    tx := drawBuffer s.draws .tx
    pay := drawBuffer s.draws .pay
    draws := s.draws + 1 }

end Sys2Proof.Machine
end

