-- ==== Sys2Proof/Machine/Operands.lean ====
section
/-! DEFINITION. Where commands and the host find their operands: the register map (10_state.md R20), the
buffer a selector names (R100), and the layouts of the IPv4 header, the UDP header and the pseudo-header
(30_encoding.md R70 to R75). -/

namespace Sys2Proof.Machine

/-! ### The register map -/

/-- The register of a number; `none` for a reserved number (R20, R185). -/
def Reg.ofNumber (n : Nat) : Option Reg :=
  match n with
  | 0x00 => some .cmd
  | 0x01 => some .err
  | 0x02 => some .rxlen
  | 0x03 => some .txlen
  | 0x04 => some .paylen
  | 0x05 => some .slOff
  | 0x06 => some .slLen
  | 0x07 => some .csSel
  | 0x08 => some .csOff
  | 0x09 => some .csLen
  | 0x0A => some .csRes
  | 0x10 => some .ipVer
  | 0x11 => some .ipIhl
  | 0x12 => some .ipTos
  | 0x13 => some .ipTlen
  | 0x14 => some .ipId
  | 0x15 => some .ipFlags
  | 0x16 => some .ipFrag
  | 0x17 => some .ipTtl
  | 0x18 => some .ipProto
  | 0x19 => some .ipCsum
  | 0x1A => some .ipSrc
  | 0x1B => some .ipDst
  | 0x20 => some .udpSport
  | 0x21 => some .udpDport
  | 0x22 => some .udpLen
  | 0x23 => some .udpCsum
  | _ => none

/-- The value of a register, zero-extended to 32 bits; CMD reads as 0 (R16, R20, R180). -/
def readReg (s : State) : Reg → BusWord
  | .cmd => 0
  | .err => s.err.setWidth 32
  | .rxlen => s.rxlen.setWidth 32
  | .txlen => s.txlen.setWidth 32
  | .paylen => s.paylen.setWidth 32
  | .slOff => s.slOff.setWidth 32
  | .slLen => s.slLen.setWidth 32
  | .csSel => s.csSel.setWidth 32
  | .csOff => s.csOff.setWidth 32
  | .csLen => s.csLen.setWidth 32
  | .csRes => s.csRes.setWidth 32
  | .ipVer => s.ip.ver.setWidth 32
  | .ipIhl => s.ip.ihl.setWidth 32
  | .ipTos => s.ip.tos.setWidth 32
  | .ipTlen => s.ip.tlen.setWidth 32
  | .ipId => s.ip.id.setWidth 32
  | .ipFlags => s.ip.flags.setWidth 32
  | .ipFrag => s.ip.frag.setWidth 32
  | .ipTtl => s.ip.ttl.setWidth 32
  | .ipProto => s.ip.proto.setWidth 32
  | .ipCsum => s.ip.csum.setWidth 32
  | .ipSrc => s.ip.src
  | .ipDst => s.ip.dst
  | .udpSport => s.udp.sport.setWidth 32
  | .udpDport => s.udp.dport.setWidth 32
  | .udpLen => s.udp.len.setWidth 32
  | .udpCsum => s.udp.csum.setWidth 32

/-- A write of `v` to a register keeps its low bits (R16); ERR and CS_RES are read-only, writes are ignored
(R20, R181). CMD holds nothing: what a write to it does is `hostWrite`'s (R184). -/
def writeReg (s : State) (v : BusWord) : Reg → State
  | .cmd => s
  | .err => s
  | .rxlen => { s with rxlen := v.setWidth 16 }
  | .txlen => { s with txlen := v.setWidth 16 }
  | .paylen => { s with paylen := v.setWidth 16 }
  | .slOff => { s with slOff := v.setWidth 16 }
  | .slLen => { s with slLen := v.setWidth 16 }
  | .csSel => { s with csSel := v.setWidth 2 }
  | .csOff => { s with csOff := v.setWidth 16 }
  | .csLen => { s with csLen := v.setWidth 16 }
  | .csRes => s
  | .ipVer => { s with ip := { s.ip with ver := v.setWidth 4 } }
  | .ipIhl => { s with ip := { s.ip with ihl := v.setWidth 4 } }
  | .ipTos => { s with ip := { s.ip with tos := v.setWidth 8 } }
  | .ipTlen => { s with ip := { s.ip with tlen := v.setWidth 16 } }
  | .ipId => { s with ip := { s.ip with id := v.setWidth 16 } }
  | .ipFlags => { s with ip := { s.ip with flags := v.setWidth 3 } }
  | .ipFrag => { s with ip := { s.ip with frag := v.setWidth 13 } }
  | .ipTtl => { s with ip := { s.ip with ttl := v.setWidth 8 } }
  | .ipProto => { s with ip := { s.ip with proto := v.setWidth 8 } }
  | .ipCsum => { s with ip := { s.ip with csum := v.setWidth 16 } }
  | .ipSrc => { s with ip := { s.ip with src := v } }
  | .ipDst => { s with ip := { s.ip with dst := v } }
  | .udpSport => { s with udp := { s.udp with sport := v.setWidth 16 } }
  | .udpDport => { s with udp := { s.udp with dport := v.setWidth 16 } }
  | .udpLen => { s with udp := { s.udp with len := v.setWidth 16 } }
  | .udpCsum => { s with udp := { s.udp with csum := v.setWidth 16 } }

/-- The buffer CS_SEL selects: 0 RXBUF, 1 TXBUF, 2 PAYBUF, 3 reserved (R20, R100). -/
def selectedBuffer (sel : BitVec 2) : Option BufId :=
  if sel = 0 then some .rx else if sel = 1 then some .tx else if sel = 2 then some .pay else none

/-- The header length in bytes, `ihl*4` (R77). -/
abbrev headerBytes (ihl : BitVec 4) : Nat := ihl.toNat * 4

/-! ### Byte order and layouts -/

/-- The word `{hi,lo}`: the byte at the lower offset is the high byte (R41). -/
def wordOf (hi lo : Byte) : Word := hi ++ lo

/-- The high byte of a word, `w[15:8]`. -/
def hiByte (w : Word) : Byte := w.extractLsb' 8 8

/-- The low byte of a word, `w[7:0]`. -/
def loByte (w : Word) : Byte := w.extractLsb' 0 8

/-- An address as its upper and lower word: `a[31:16]`, `a[15:0]` (R75, R161). -/
def hiWord (a : BitVec 32) : Word := a.extractLsb' 16 16

/-- `a[15:0]`. -/
def loWord (a : BitVec 32) : Word := a.extractLsb' 0 16

/-- A 16-bit field as its two bytes, high byte first (R41). -/
def wordBytes (w : Word) : List Byte := [hiByte w, loByte w]

/-- An address as its four octets, first octet in bits 31:24 (R13). -/
def addrBytes (a : BitVec 32) : List Byte := wordBytes (hiWord a) ++ wordBytes (loWord a)

/-- Element `i` of a byte sequence; the layouts only use it below the length (log entry 14). -/
def byteAt (bs : List Byte) (i : Nat) : Byte := bs.getD i 0

/-- The 16-bit big-endian field at offset `i`. -/
def wordAt (bs : List Byte) (i : Nat) : Word := wordOf (byteAt bs i) (byteAt bs (i + 1))

/-- The 32-bit big-endian field at offset `i`. -/
def addrAt (bs : List Byte) (i : Nat) : BitVec 32 := wordAt bs i ++ wordAt bs (i + 2)

/-- `ip_image(f)`: the 20 header bytes of a field record (R70, R71). -/
def ipImage (f : IpFields) : List Byte :=
  [(f.ver ++ f.ihl : BitVec 8), f.tos] ++ wordBytes f.tlen ++ wordBytes f.id ++ wordBytes (f.flags ++ f.frag)
    ++ [f.ttl, f.proto] ++ wordBytes f.csum ++ addrBytes f.src ++ addrBytes f.dst

/-- `ip_fields(b)`: the field record of 20 bytes (R70, R72). -/
def ipFields (bs : List Byte) : IpFields where
  ver := (byteAt bs 0).extractLsb' 4 4
  ihl := (byteAt bs 0).extractLsb' 0 4
  tos := byteAt bs 1
  tlen := wordAt bs 2
  id := wordAt bs 4
  flags := (byteAt bs 6).extractLsb' 5 3
  frag := (byteAt bs 6).extractLsb' 0 5 ++ byteAt bs 7
  ttl := byteAt bs 8
  proto := byteAt bs 9
  csum := wordAt bs 10
  src := addrAt bs 12
  dst := addrAt bs 16

/-- `udp_image(u)`: the 8 header bytes of a UDP field record (R74). -/
def udpImage (u : UdpFields) : List Byte :=
  wordBytes u.sport ++ wordBytes u.dport ++ wordBytes u.len ++ wordBytes u.csum

/-- `udp_fields(b)`: the UDP field record of 8 bytes (R74). -/
def udpFields (bs : List Byte) : UdpFields where
  sport := wordAt bs 0
  dport := wordAt bs 2
  len := wordAt bs 4
  csum := wordAt bs 6

/-- `pseudo_words(src, dst, len)`: the pseudo-header as six checksum words; the protocol is the constant 17
(R75, R164). -/
def pseudoWords (src dst : BitVec 32) (len : Word) : List Word :=
  [hiWord src, loWord src, hiWord dst, loWord dst, 0x0011#16, len]

end Sys2Proof.Machine
end

