-- ==== Sys2Proof/Machine/Checksum.lean ====
section
/-! DEFINITION. The Checksum Engine (40_checksum.md) and the CSUM command. -/

namespace Sys2Proof.Machine

/-- `words_of_bytes(bs)`: big-endian pairs from the first byte on; a last unpaired byte is the high byte of a
word whose low byte is zero (R91). -/
def wordsOfBytes : List Byte → List Word
  | [] => []
  | [b] => [wordOf b 0]
  | b :: c :: rest => wordOf b c :: wordsOfBytes rest

/-- `acc(ws)`: the sum in an unsigned 32-bit accumulator that starts at 0 (R92). -/
def acc (ws : List Word) : BitVec 32 := ws.foldl (fun a w => a + w.setWidth 32) 0

/-- One replacement of the fold: `(accumulator & 0xFFFF) + (accumulator >> 16)` (R93). -/
def foldOnce (a : BitVec 32) : BitVec 32 := (a &&& 0xFFFF#32) + (a >>> 16)

/-- At most `n` replacements, while the accumulator exceeds 0xFFFF (R93). -/
def foldUpTo : Nat → BitVec 32 → BitVec 32
  | 0, a => a
  | n + 1, a => if a ≤ 0xFFFF#32 then a else foldUpTo n (foldOnce a)

/-- `fold16(a)`. "The loop ends after at most two replacements for any 32-bit `a`" (R93; log entry 10). -/
def fold16 (a : BitVec 32) : Word := (foldUpTo 2 a).setWidth 16

/-- `checksum(ws) = ~fold16(acc(ws))` (R94), for at most `CSUM_MAX_WORDS` words; beyond them the spec defines
nothing and the value is open (R92, U1; log entry 7). -/
def checksum (ws : List Word) : Word :=
  if ws.length ≤ Config.csumMaxWords then ~~~ fold16 (acc ws) else Config.longChecksum ws

/-- `checksum_bytes(bs)` (R95). -/
def checksumBytes (bs : List Byte) : Word := checksum (wordsOfBytes bs)

/-- `ip_words()`: the ten words of the fixed header, the checksum word zero (R161). -/
def ipWords (f : IpFields) : List Word :=
  [wordOf (f.ver ++ f.ihl) f.tos, f.tlen, f.id, f.flags ++ f.frag, wordOf f.ttl f.proto, 0x0000#16,
   hiWord f.src, loWord f.src, hiWord f.dst, loWord f.dst]

/-- `udp_words()`: pseudo-header, UDP header with a zero checksum word, payload (R162). -/
def udpWords (f : IpFields) (u : UdpFields) (payload : List Byte) : List Word :=
  pseudoWords f.src f.dst u.len ++ [u.sport, u.dport, u.len, 0x0000#16] ++ wordsOfBytes payload

/-- The pseudocode of CSUM (R100) without its final `ERR <- 0`. -/
def csumBody (s : State) : Except CoreError State :=
  match selectedBuffer s.csSel with
  | none => .error .illegalCommand
  | some buf =>
    if s.csOff.toNat + s.csLen.toNat > (s.validLength buf).toNat then .error .truncatedBuffer
    else .ok { s with csRes := checksumBytes ((s.buffer buf).readBytes s.csOff.toNat s.csLen.toNat) }

/-- CSUM (R100). -/
def execCsum (s : State) : Answer := standalone csumBody s

end Sys2Proof.Machine
end

