-- ==== Sys2Proof/Machine/Ipv4.lean ====
section
/-! DEFINITION. The IPv4 Header Codec (41_ipv4_codec.md): IP4DEC and IP4ENC. -/

namespace Sys2Proof.Machine

/-- The pseudocode of IP4DEC (R111), checks in the order of R113. -/
def ip4decBody (s : State) : Except CoreError State :=
  if s.rxlen.toNat < 20 then .error .truncatedBuffer
  else
    let ihl : BitVec 4 := (s.rx.read 0).extractLsb' 0 4
    if ihl.toNat < 5 then .error .invalidHeaderLength
    else if s.rxlen.toNat < headerBytes ihl then .error .invalidHeaderLength
    else .ok { s with ip := ipFields (s.rx.readBytes 0 20) }

/-- IP4DEC (R111). -/
def execIp4dec (s : State) : Answer := standalone ip4decBody s

/-- The pseudocode of IP4ENC (R115). -/
def ip4encBody (s : State) : Except CoreError State :=
  if s.ip.tlen.toNat < headerBytes s.ip.ihl then .error .invalidLength
  else if s.ip.tlen.toNat < 20 then .error .invalidLength
  else .ok { s with tx := s.tx.writeBytes 0 (ipImage s.ip), txlen := s.ip.tlen }

/-- IP4ENC (R115). -/
def execIp4enc (s : State) : Answer := standalone ip4encBody s

end Sys2Proof.Machine
end

