-- ==== Sys2Proof/Machine/Udp.lean ====
section
/-! DEFINITION. The UDP Header Codec (42_udp_codec.md): UDPDEC and UDPENC. -/

namespace Sys2Proof.Machine

/-- The pseudocode of UDPDEC (R131). UDP_LEN bounds nothing: the payload length is the slice's (R130, R132). -/
def udpdecBody (s : State) : Except CoreError State :=
  let off := s.slOff.toNat
  let len := s.slLen.toNat
  if off + len > s.rxlen.toNat then .error .truncatedBuffer
  else if len < 8 then .error .truncatedBuffer
  else .ok { s with
    udp := udpFields (s.rx.readBytes off 8)
    pay := s.pay.copyFrom 0 s.rx (off + 8) (len - 8)
    paylen := BitVec.ofNat 16 (len - 8) }

/-- UDPDEC (R131). -/
def execUdpdec (s : State) : Answer := standalone udpdecBody s

/-- The pseudocode of UDPENC (R135); both tests compare natural numbers. -/
def udpencBody (s : State) : Except CoreError State :=
  let off := s.slOff.toNat
  let len := s.udp.len.toNat
  if len ≠ 8 + s.paylen.toNat then .error .invalidLength
  else if off + len > Config.bufMax then .error .invalidLength
  else .ok { s with
    tx := (s.tx.writeBytes off (udpImage s.udp)).copyFrom (off + 8) s.pay 0 s.paylen.toNat
    txlen := BitVec.ofNat 16 (off + len) }

/-- UDPENC (R135). -/
def execUdpenc (s : State) : Answer := standalone udpencBody s

end Sys2Proof.Machine
end

