-- ==== Sys2Proof/Machine/Echo.lean ====
section
/-! DEFINITION. The Echo Transform (43_echo_pipeline.md): SLICE, OPTCPY, XFORM and ECHO. -/

namespace Sys2Proof.Machine

/-- The pseudocode of SLICE (R152). -/
def sliceBody (s : State) : Except CoreError State :=
  let off := headerBytes s.ip.ihl
  if s.ip.tlen.toNat < off then .error .invalidHeaderLength
  else if s.ip.tlen.toNat > s.rxlen.toNat then .error .invalidHeaderLength
  else .ok { s with slOff := BitVec.ofNat 16 off, slLen := BitVec.ofNat 16 (s.ip.tlen.toNat - off) }

/-- SLICE (R152). -/
def execSlice (s : State) : Answer := standalone sliceBody s

/-- The pseudocode of OPTCPY (R158); nothing is copied when `SL_OFF <= 20`. -/
def optcpyBody (s : State) : Except CoreError State :=
  if s.slOff.toNat > s.rxlen.toNat then .error .truncatedBuffer
  else .ok { s with tx := s.tx.copyFrom 20 s.rx 20 (s.slOff.toNat - 20) }

/-- OPTCPY (R158). -/
def execOptcpy (s : State) : Answer := standalone optcpyBody s

/-- Step 1 and 2 of XFORM: zero the checksum, swap the addresses, recompute over the ten words (R160, R161). -/
def xformIp (f : IpFields) : IpFields :=
  let swapped := { f with csum := 0, src := f.dst, dst := f.src }
  { swapped with csum := checksum (ipWords swapped) }

/-- A UDP checksum of 0x0000 is stored as 0xFFFF when `UDP_ZERO_SUBST` is true (R163). -/
def substituteZero (subst : Bool) (c : Word) : Word := if c = 0 && subst then 0xFFFF#16 else c

/-- Step 3 and 4 of XFORM, on the registers after steps 1 and 2: zero the checksum, swap the ports, recompute
(R160, R162, R163). -/
def xformUdp (subst : Bool) (f : IpFields) (u : UdpFields) (payload : List Byte) : UdpFields :=
  let swapped := { u with csum := 0, sport := u.dport, dport := u.sport }
  { swapped with csum := substituteZero subst (checksum (udpWords f swapped payload)) }

/-- XFORM for a given value of the parameter `UDP_ZERO_SUBST` (R160). -/
def xformWith (subst : Bool) (s : State) : State :=
  let ip := xformIp s.ip
  { s with ip := ip, udp := xformUdp subst ip s.udp (s.pay.readBytes 0 s.paylen.toNat) }

/-- The pseudocode of XFORM (R160): it cannot fail. -/
def xformBody (s : State) : Except CoreError State := .ok (xformWith Config.udpZeroSubst s)

/-- XFORM (R160). -/
def execXform (s : State) : Answer := standalone xformBody s

/-- The seven stages of ECHO in order (R150, R170). -/
def echoStages : List Body :=
  [ip4decBody, sliceBody, udpdecBody, xformBody, ip4encBody, optcpyBody, udpencBody]

/-- ECHO (R170): the stages in order, up to the first error. On an error the completed stages' writes stay,
TXLEN becomes 0 and ERR the code (R171). -/
def execEcho (s : State) : Answer :=
  match runStages echoStages s with
  | (t, none) => succeed t
  | (t, some e) => raiseError e { t with txlen := 0 }

end Sys2Proof.Machine
end

