-- ==== Sys2Proof/Machine/System.lean ====
section
/-! DEFINITION. The one system command, SRST (44_host_access.md R186, R188). -/

namespace Sys2Proof.Machine

/-- SRST (R186): the nine registers become 0; CS_RES, the IP_ and UDP_ registers and the buffers keep their
values (R231). -/
def execSrst (s : State) : Answer := .next (zeroControl s)

end Sys2Proof.Machine
end

