-- ==== Sys2Proof/Machine/Dispatch.lean ====
section
/-! DEFINITION. One command: each constructor of Instr with its meaning (30_encoding.md R62). -/

namespace Sys2Proof.Machine

def exec (i : Instr) (s : State) : Host.Outcome State Fault Refusal :=
  match i with
  | .csum => Sys2Proof.Machine.execCsum s
  | .ip4dec => Sys2Proof.Machine.execIp4dec s
  | .ip4enc => Sys2Proof.Machine.execIp4enc s
  | .udpdec => Sys2Proof.Machine.execUdpdec s
  | .udpenc => Sys2Proof.Machine.execUdpenc s
  | .slice => Sys2Proof.Machine.execSlice s
  | .xform => Sys2Proof.Machine.execXform s
  | .echo => Sys2Proof.Machine.execEcho s
  | .optcpy => Sys2Proof.Machine.execOptcpy s
  | .srst => Sys2Proof.Machine.execSrst s

end Sys2Proof.Machine
end

