-- ==== Sys2Proof/Machine/HostAccess.lean ====
section
/-! DEFINITION. What one host transaction does (44_host_access.md R180 to R185), how a command is issued
(R184), and the pseudo-instructions of the host notation as the transactions they expand to (R66, R67). -/

namespace Sys2Proof.Machine

/-! ### The transactions -/

/-- The command the word `c` spells, run to completion (R184); an illegal word changes nothing but ERR, which
becomes 4 (R64, R209). -/
def issueCommand (c : BusWord) (s : State) : Answer :=
  match decode c with
  | .ok i => exec i s
  | .error _ => raiseError .illegalCommand s

/-- A value returned to the host. -/
def reply (r : HostReply) (s : State) : Answer := .next { s with hostOut := s.hostOut ++ [r] }

/-- `HRD(reg)` (R180); a reserved number has no meaning (R185). -/
def hostReadReg (n : Nat) (s : State) : Answer :=
  match Reg.ofNumber n with
  | some r => reply (.reg (readReg s r)) s
  | none => .refused (.reservedRegister n)

/-- `HWR(reg, v)` (R181, R184); a reserved number has no meaning (R185). -/
def hostWriteReg (n : Nat) (v : BusWord) (s : State) : Answer :=
  match Reg.ofNumber n with
  | some .cmd => issueCommand v s
  | some r => .next (writeReg s v r)
  | none => .refused (.reservedRegister n)

/-- `HBR(buf, off)` (R182), not bounded by the valid length (R46); 65535 and above is outside (R185). -/
def hostReadByte (buf : BufId) (off : Nat) (s : State) : Answer :=
  if off < Config.bufMax then reply (.byte ((s.buffer buf).read off)) s
  else .refused (.offsetOutsideBuffer buf off)

/-- `HBW(buf, off, b)` (R183); 65535 and above is outside (R185). -/
def hostWriteByte (buf : BufId) (off : Nat) (b : Byte) (s : State) : Answer :=
  if off < Config.bufMax then .next (s.withBuffer buf ((s.buffer buf).write off b))
  else .refused (.offsetOutsideBuffer buf off)

/-- One thing the host does, from start to end (R8). -/
def hostEvent (e : HostEvent) (s : State) : Answer :=
  match e with
  | .hrd reg => hostReadReg reg s
  | .hwr reg v => hostWriteReg reg v s
  | .hbr buf off => hostReadByte buf off s
  | .hbw buf off b => hostWriteByte buf off b s
  | .reset => .next (hardwareReset s)

/-- The event names a register and an offset that exist (R185). -/
def HostEvent.addressable : HostEvent → Bool
  | .hrd reg => (Reg.ofNumber reg).isSome
  | .hwr reg _ => (Reg.ofNumber reg).isSome
  | .hbr _ off => decide (off < Config.bufMax)
  | .hbw _ off _ => decide (off < Config.bufMax)
  | .reset => true

/-! ### Pseudo-instructions (R67) -/

/-- A command line of a host program: `HWR(CMD, word)` (R66). -/
def commandLine (i : Instr) : HostEvent := .hwr 0x00 (encode i)

/-- `WB buf,off,b0; WB buf,off+1,b1; …`. -/
def writeLines (buf : BufId) (off : Nat) : List Byte → List HostEvent
  | [] => []
  | b :: bs => .hbw buf off b :: writeLines buf (off + 1) bs

/-- `RB buf,off; …; RB buf,off+n-1`. -/
def readLines (buf : BufId) (off : Nat) : (n : Nat) → List HostEvent
  | 0 => []
  | n + 1 => .hbr buf off :: readLines buf (off + 1) n

/-- `LDRX b0 … b(n-1)`: deliver one received datagram (R67, R187). -/
def ldrx (bs : List Byte) : List HostEvent :=
  writeLines .rx 0 bs ++ [.hwr 0x02 (BitVec.ofNat 32 bs.length)]

/-- `LDPAY b0 … b(n-1)` (R67). -/
def ldpay (bs : List Byte) : List HostEvent :=
  writeLines .pay 0 bs ++ [.hwr 0x04 (BitVec.ofNat 32 bs.length)]

/-- `RDTX` for the `n` that its first line, `RD TXLEN`, returns (R67, R187). -/
def rdtx (n : Nat) : List HostEvent := .hrd 0x03 :: readLines .tx 0 n

/-- `CSUMR buf, off, len` (R67). -/
def csumr (buf : BufId) (off len : BusWord) : List HostEvent :=
  [.hwr 0x07 (BitVec.ofNat 32 buf.number), .hwr 0x08 off, .hwr 0x09 len, commandLine .csum, .hrd 0x01,
   .hrd 0x0A]

/-! ### Programs in which the host looks at ERR (R67)

What such a program does next depends on a value a read returned, so it is no fixed list of transactions: it is a
list of lines, one of them the host's test (log entry 15). -/

/-- A line of a host program. -/
inductive HostLine where
  /-- A transaction. -/
  | transact (e : HostEvent)
  /-- `RD ERR`, and "stop at the first non-zero ERR" (R67). -/
  | checkErr
  deriving DecidableEq, Repr

/-- Goes on with `k` from the next state, if there is one. -/
def onNext (a : Answer) (k : State → Answer) : Answer :=
  match a with
  | .next t => k t
  | .fault f => .fault f
  | .refused r => .refused r

/-- The value the host's latest read returned is `v`. -/
def lastReplyIs (v : BusWord) (s : State) : Bool := decide (s.hostOut.getLast? = some (.reg v))

/-- The lines in order; at `checkErr` the host reads ERR with the transaction `HRD(ERR)` and goes on only when the
value returned is 0 (R67). -/
def runLines : List HostLine → State → Answer
  | [], s => .next s
  | .transact e :: rest, s => onNext (hostEvent e s) (runLines rest)
  | .checkErr :: rest, s =>
    onNext (hostEvent (.hrd 0x01) s) fun t => if lastReplyIs 0 t then runLines rest t else .next t

/-- Each command line followed by `RD ERR`. -/
def checkedLines : List Instr → List HostLine
  | [] => []
  | i :: rest => .transact (commandLine i) :: .checkErr :: checkedLines rest

/-- `ECHOX`, the source's `echo(ip, udp)` on the registers: `RD ERR` stands "after each of the last two" (R67). -/
def echox : List HostLine := .transact (commandLine .xform) :: checkedLines [.ip4enc, .udpenc]

/-- The seven commands of the pipeline in order (R67, R173). -/
def echoCommands : List Instr := [.ip4dec, .slice, .udpdec, .xform, .ip4enc, .optcpy, .udpenc]

/-- `ECHOSEQ`: the seven commands "with `RD ERR` after each" (R67). -/
def echoseq : List HostLine := checkedLines echoCommands

/-- What commands issued one after another, up to the first that leaves ERR other than 0, do to the CORE: the
sequence of R173, each command issued by its write to CMD. `runLines (checkedLines is)` is the same with the
host's reads of ERR, which change no state of the CORE (R48). -/
def runCommands : List Instr → State → Answer
  | [], s => .next s
  | i :: rest, s =>
    onNext (hostEvent (commandLine i) s) fun t => if t.err = okCode then runCommands rest t else .next t

end Sys2Proof.Machine
end

