-- ==== Sys2Proof/Machine/Step.lean ====
section
/-! DEFINITION. One step: one host transaction from start to end (00_scope.md R8). The CORE has no program
counter and fetches nothing (R17): the next command is the next write to CMD the host makes (log entry 1). -/

namespace Sys2Proof.Machine

/-- The host's next transaction is carried out; when the host does nothing the CORE "is idle and keeps all its
state" (R221). -/
def step (s : State) : Host.Outcome State Fault Refusal :=
  match s.hostIn with
  | [] => .next s
  | e :: rest => hostEvent e { s with hostIn := rest }

/-- The state in which the host's next transaction is `HWR(CMD, w)`: the CORE loads no program, so this stands
for the host issuing the command (R184; log entry 1). -/
def State.withFetchWord (s : State) (nbits w : Nat) : State :=
  { s with hostIn := .hwr 0x00 (tableWord nbits w) :: s.hostIn }

end Sys2Proof.Machine
end

