-- ==== Sys2Proof/Safety.lean ====
section
/-! DEFINITION. The terms in which claims are made: the frames of a state, the invariant every step keeps, the
states a hardware reset can leave, a step that goes on, the frames ECHO accepts, and the spec's tables and
layouts written once more as plain numbers, so that a claim does not repeat the model's own functions. -/

namespace Sys2Proof.Machine

/-! ### Frames -/

/-- `RXBUF[0..RXLEN)`, the received frame (R22). -/
def rxFrame (s : State) : List Byte := s.rx.readBytes 0 s.rxlen.toNat

/-- `TXBUF[0..TXLEN)`, the frame to send (R22). -/
def txFrame (s : State) : List Byte := s.tx.readBytes 0 s.txlen.toNat

/-- `PAYBUF[0..PAYLEN)`, the decoded UDP payload (R22). -/
def payload (s : State) : List Byte := s.pay.readBytes 0 s.paylen.toNat

/-! ### Invariant, reset, progress -/

/-- What every step keeps: each buffer is in its canonical form, so no byte lies at or above `BUF_MAX` (R22,
R45), and ERR holds a code of R201 ("Values 5 to 7 are never produced", R18). -/
abbrev State.Inv (s : State) : Prop :=
  s.rx.wf = true ∧ s.tx.wf = true ∧ s.pay.wf = true ∧ s.err.toNat ≤ 4

/-- A state that hardware reset may leave: the nine registers are 0, everything else is unspecified (R30). -/
abbrev AfterReset (s : State) : Prop :=
  s.err = 0 ∧ s.rxlen = 0 ∧ s.txlen = 0 ∧ s.paylen = 0 ∧ s.slOff = 0 ∧ s.slLen = 0 ∧ s.csSel = 0 ∧
    s.csOff = 0 ∧ s.csLen = 0

/-- A safe step: the CORE goes on. -/
abbrev Proceeds (s : State) : Prop := ∃ t, step s = .next t

/-! ### Numbers in a buffer -/

/-- Byte `a` of a buffer as a number. -/
def byteNat (m : Memory) (a : Nat) : Nat := (m.read a).toNat

/-- The 16-bit big-endian field at offset `a` as a number: `MemRead(B, a, 2)` (00_scope.md section 5.2). -/
def field16 (m : Memory) (a : Nat) : Nat := byteNat m a * 256 + byteNat m (a + 1)

/-- The 32-bit big-endian field at offset `a` as a number: `MemRead(B, a, 4)`. -/
def field32 (m : Memory) (a : Nat) : Nat := field16 m a * 65536 + field16 m (a + 2)

/-- The header length `4*RXBUF[0][3:0]` in bytes. -/
def headerLen (m : Memory) : Nat := byteNat m 0 % 16 * 4

/-- The frames ECHO accepts: row 8 of the table of R203. -/
abbrev EchoAccepts (s : State) : Prop :=
  20 ≤ s.rxlen.toNat ∧ 5 ≤ byteNat s.rx 0 % 16 ∧ headerLen s.rx ≤ s.rxlen.toNat ∧
    headerLen s.rx + 8 ≤ field16 s.rx 2 ∧ field16 s.rx 2 ≤ s.rxlen.toNat ∧
    field16 s.rx (headerLen s.rx + 4) = field16 s.rx 2 - headerLen s.rx

/-- The ERR code of ECHO for the frame in RXBUF: the table of R203, first row that applies. -/
def echoCode (s : State) : Nat :=
  if s.rxlen.toNat < 20 then 1
  else if byteNat s.rx 0 % 16 < 5 then 2
  else if s.rxlen.toNat < headerLen s.rx then 2
  else if field16 s.rx 2 < headerLen s.rx then 2
  else if s.rxlen.toNat < field16 s.rx 2 then 2
  else if field16 s.rx 2 - headerLen s.rx < 8 then 1
  else if field16 s.rx (headerLen s.rx + 4) ≠ field16 s.rx 2 - headerLen s.rx then 3
  else 0

/-- The failing stage of ECHO for the frame in RXBUF, 1 to 7, or 0 where none fails: the table of R203. -/
def echoStage (s : State) : Nat :=
  if s.rxlen.toNat < 20 then 1
  else if byteNat s.rx 0 % 16 < 5 then 1
  else if s.rxlen.toNat < headerLen s.rx then 1
  else if field16 s.rx 2 < headerLen s.rx then 2
  else if s.rxlen.toNat < field16 s.rx 2 then 2
  else if field16 s.rx 2 - headerLen s.rx < 8 then 3
  else if field16 s.rx (headerLen s.rx + 4) ≠ field16 s.rx 2 - headerLen s.rx then 7
  else 0

/-! ### Layouts in numbers -/

/-- The twelve fields of the header at the start of a buffer (R70, R72). -/
def ipFieldsOf (m : Memory) : IpFields where
  ver := BitVec.ofNat 4 (byteNat m 0 / 16)
  ihl := BitVec.ofNat 4 (byteNat m 0 % 16)
  tos := BitVec.ofNat 8 (byteNat m 1)
  tlen := BitVec.ofNat 16 (field16 m 2)
  id := BitVec.ofNat 16 (field16 m 4)
  flags := BitVec.ofNat 3 (byteNat m 6 / 32)
  frag := BitVec.ofNat 13 (byteNat m 6 % 32 * 256 + byteNat m 7)
  ttl := BitVec.ofNat 8 (byteNat m 8)
  proto := BitVec.ofNat 8 (byteNat m 9)
  csum := BitVec.ofNat 16 (field16 m 10)
  src := BitVec.ofNat 32 (field32 m 12)
  dst := BitVec.ofNat 32 (field32 m 16)

/-- The four fields of the UDP header at offset `a` of a buffer (R73, R74). -/
def udpFieldsOf (m : Memory) (a : Nat) : UdpFields where
  sport := BitVec.ofNat 16 (field16 m a)
  dport := BitVec.ofNat 16 (field16 m (a + 2))
  len := BitVec.ofNat 16 (field16 m (a + 4))
  csum := BitVec.ofNat 16 (field16 m (a + 6))

/-- The two bytes of a 16-bit number, high byte first (R41). -/
def natBytes16 (n : Nat) : List Nat := [n / 256, n % 256]

/-- The four bytes of a 32-bit number, highest first (R13, R41). -/
def natBytes32 (n : Nat) : List Nat := natBytes16 (n / 65536) ++ natBytes16 (n % 65536)

/-- The 20 bytes of `ip_image(f)` as numbers (R71). -/
def ipImageNat (f : IpFields) : List Nat :=
  [f.ver.toNat * 16 + f.ihl.toNat, f.tos.toNat] ++ natBytes16 f.tlen.toNat ++ natBytes16 f.id.toNat ++
    [f.flags.toNat * 32 + f.frag.toNat / 256, f.frag.toNat % 256, f.ttl.toNat, f.proto.toNat] ++
    natBytes16 f.csum.toNat ++ natBytes32 f.src.toNat ++ natBytes32 f.dst.toNat

/-- The 8 bytes of `udp_image(u)` as numbers (R74). -/
def udpImageNat (u : UdpFields) : List Nat :=
  natBytes16 u.sport.toNat ++ natBytes16 u.dport.toNat ++ natBytes16 u.len.toNat ++ natBytes16 u.csum.toNat

/-! ### Checksums in numbers -/

/-- The sum of a word sequence over the natural numbers (R92). -/
def wordSum (ws : List Word) : Nat := (ws.map BitVec.toNat).sum

/-- The checksum of words whose sum is `n`: `0xFFFF - fold16(n)` with the closed form of the fold (R94, R97). -/
def onesComplement (n : Nat) : Nat := 0xFFFF - (if n = 0 then 0 else (n - 1) % 0xFFFF + 1)

/-- What XFORM stores for a UDP checksum that computes to `c` (R163). -/
def afterSubstitution (subst : Bool) (c : Nat) : Nat := if c = 0 ∧ subst = true then 0xFFFF else c

/-- The ten words of `ip_words()` as numbers (R161). -/
def ipWordsNat (f : IpFields) : List Nat :=
  [f.ver.toNat * 4096 + f.ihl.toNat * 256 + f.tos.toNat, f.tlen.toNat, f.id.toNat,
   f.flags.toNat * 8192 + f.frag.toNat, f.ttl.toNat * 256 + f.proto.toNat, 0,
   f.src.toNat / 65536, f.src.toNat % 65536, f.dst.toNat / 65536, f.dst.toNat % 65536]

/-- The words of `udp_words()` before the payload's, as numbers: pseudo-header and UDP header (R75, R162). -/
def udpHeadWordsNat (f : IpFields) (u : UdpFields) : List Nat :=
  [f.src.toNat / 65536, f.src.toNat % 65536, f.dst.toNat / 65536, f.dst.toNat % 65536, 0x0011, u.len.toNat,
   u.sport.toNat, u.dport.toNat, u.len.toNat, 0]

/-! ### The register map in numbers -/

/-- Every register number the host can reach with the value a read of it returns: the table of R20, with R12
and R14. -/
def registerValues (s : State) : List (Nat × Nat) :=
  [(0x00, 0), (0x01, s.err.toNat), (0x02, s.rxlen.toNat), (0x03, s.txlen.toNat), (0x04, s.paylen.toNat),
   (0x05, s.slOff.toNat), (0x06, s.slLen.toNat), (0x07, s.csSel.toNat), (0x08, s.csOff.toNat),
   (0x09, s.csLen.toNat), (0x0A, s.csRes.toNat),
   (0x10, s.ip.ver.toNat), (0x11, s.ip.ihl.toNat), (0x12, s.ip.tos.toNat), (0x13, s.ip.tlen.toNat),
   (0x14, s.ip.id.toNat), (0x15, s.ip.flags.toNat), (0x16, s.ip.frag.toNat), (0x17, s.ip.ttl.toNat),
   (0x18, s.ip.proto.toNat), (0x19, s.ip.csum.toNat), (0x1A, s.ip.src.toNat), (0x1B, s.ip.dst.toNat),
   (0x20, s.udp.sport.toNat), (0x21, s.udp.dport.toNat), (0x22, s.udp.len.toNat), (0x23, s.udp.csum.toNat)]

/-- The read/write registers with their widths: the table of R20, with R12 and R14. -/
def writableWidths : List (Nat × Nat) :=
  [(0x02, 16), (0x03, 16), (0x04, 16), (0x05, 16), (0x06, 16), (0x07, 2), (0x08, 16), (0x09, 16),
   (0x10, 4), (0x11, 4), (0x12, 8), (0x13, 16), (0x14, 16), (0x15, 3), (0x16, 13), (0x17, 8), (0x18, 8),
   (0x19, 16), (0x1A, 32), (0x1B, 32), (0x20, 16), (0x21, 16), (0x22, 16), (0x23, 16)]

/-- The reserved register numbers (R185). -/
abbrev ReservedNumber (n : Nat) : Prop := (0x0B ≤ n ∧ n ≤ 0x0F) ∨ (0x1C ≤ n ∧ n ≤ 0x1F) ∨ 0x24 ≤ n

end Sys2Proof.Machine
end

