-- ==== Sys2Proof/Certificates/Slice0/Obligations.lean ====
section
/-! DEFINITION. The statements for the provers. Each docstring names the rules of spec/ it formalises. A state is
any state: the buffers need not be in canonical form unless a premise says so. -/

open Sys2Proof Sys2Proof.Machine

/-! ### Encoding -/

/-- R65, with the rows of R62: `decode` gives the command of a row for exactly the row's word, and is illegal
for every other word. -/
def Obligations.DecodeAcceptsExactlyTheTenWords : Prop :=
  ∀ c : BusWord,
    (decode c = .ok .csum ↔ c = 0x00000001#32) ∧ (decode c = .ok .ip4dec ↔ c = 0x00000002#32) ∧
    (decode c = .ok .ip4enc ↔ c = 0x00000003#32) ∧ (decode c = .ok .udpdec ↔ c = 0x00000004#32) ∧
    (decode c = .ok .udpenc ↔ c = 0x00000005#32) ∧ (decode c = .ok .slice ↔ c = 0x00000006#32) ∧
    (decode c = .ok .xform ↔ c = 0x00000007#32) ∧ (decode c = .ok .echo ↔ c = 0x00000008#32) ∧
    (decode c = .ok .optcpy ↔ c = 0x00000009#32) ∧ (decode c = .ok .srst ↔ c = 0x0000000F#32) ∧
    ((∃ e, decode c = .error e) ↔
      c ∉ [0x00000001#32, 0x00000002#32, 0x00000003#32, 0x00000004#32, 0x00000005#32, 0x00000006#32,
           0x00000007#32, 0x00000008#32, 0x00000009#32, 0x0000000F#32])

/-- Sanity of the decoder on a few words written out from R61 and R62, one of them with a bit of `zero` set. -/
def Obligations.SampleWordsDecode : Prop :=
  decode 0b00000000000000000000000000000001#32 = .ok .csum ∧
  decode 0b00000000000000000000000000001000#32 = .ok .echo ∧
  decode 0b00000000000000000000000000001111#32 = .ok .srst ∧
  decode 0b00000000000000000000000100001000#32 = .error .zeroFieldSet ∧
  decode 0b00000000000000000000000000000000#32 = .error .unassignedOpcode

/-- Encode and decode agree in both directions (R61, R62, R65). -/
def Obligations.DecodeAndEncodeAgree : Prop :=
  (∀ i : Instr, i.wellFormed = true → decode (encode i) = .ok i) ∧
  (∀ (c : BusWord) (i : Instr), decode c = .ok i → encode i = c)

/-- R71, R72: the IPv4 layout in numbers, both ways, and that the two functions are inverse bijections. -/
def Obligations.IpHeaderLayoutIsABijection : Prop :=
  (∀ f : IpFields, (ipImage f).map BitVec.toNat = ipImageNat f) ∧
  (∀ m : Memory, ipFields (m.readBytes 0 20) = ipFieldsOf m) ∧
  (∀ bs : List Byte, bs.length = 20 → ipImage (ipFields bs) = bs) ∧
  (∀ f : IpFields, ipFields (ipImage f) = f)

/-- R74: the UDP layout in numbers, both ways, and that the two functions are inverse bijections. -/
def Obligations.UdpHeaderLayoutIsABijection : Prop :=
  (∀ u : UdpFields, (udpImage u).map BitVec.toNat = udpImageNat u) ∧
  (∀ (m : Memory) (a : Nat), udpFields (m.readBytes a 8) = udpFieldsOf m a) ∧
  (∀ bs : List Byte, bs.length = 8 → udpImage (udpFields bs) = bs) ∧
  (∀ u : UdpFields, udpFields (udpImage u) = u)

/-! ### The step and the host -/

/-- From R184: when the host's next transaction writes `c` to CMD, the step runs the command `c` spells, to
completion; an illegal word takes IllegalCommand. That the transaction stands first in `hostIn` is the model's form
of the host (log entry 1). -/
def Obligations.StepRunsTheIssuedCommand : Prop :=
  ∀ (s : State) (c : BusWord) (rest : List HostEvent), s.hostIn = .hwr 0x00 c :: rest →
    (∀ i, decode c = .ok i → step s = exec i { s with hostIn := rest }) ∧
    (∀ e, decode c = .error e → step s = .next { s with hostIn := rest, err := 4 })

/-- The model's own hook (log entry 1): with the word of a command placed by `withFetchWord`, the very next
step runs that command on the state as it was. -/
def Obligations.PlacedWordRunsNext : Prop :=
  ∀ (s : State) (i : Instr), step (s.withFetchWord 32 (encode i).toNat) = exec i s

/-- The model's own form of the host (log entry 1): a step carries out the first of the host's transactions to
come; with none to come it keeps all the state, as the idle CORE does (R221). -/
def Obligations.StepTakesTheNextTransaction : Prop :=
  ∀ s : State, (s.hostIn = [] → step s = .next s) ∧
    ∀ (e : HostEvent) (rest : List HostEvent), s.hostIn = e :: rest → step s = hostEvent e { s with hostIn := rest }

/-- R64, R209: an illegal command word changes nothing but ERR, which becomes 4. -/
def Obligations.IllegalWordChangesOnlyErr : Prop :=
  ∀ (s : State) (c : BusWord),
    (c.toNat / 256 ≠ 0 ∨ (c.toNat / 256 = 0 ∧ (c.toNat % 256 = 0x00 ∨
      (0x0A ≤ c.toNat % 256 ∧ c.toNat % 256 ≤ 0x0E) ∨ 0x10 ≤ c.toNat % 256))) →
    hostEvent (.hwr 0x00 c) s = .next { s with err := 4 }

/-- From R185: a transaction that names a reserved register number or an offset of 65535 or more is refused; the
names of the two refusals are the model's choice (log entry 9). From R208 and R220: every other transaction leads to
a next state. -/
def Obligations.OnlyReservedTransactionsAreRefused : Prop :=
  ∀ (s : State) (e : HostEvent),
    (∀ n, ReservedNumber n → (e = .hrd n ∨ ∃ v, e = .hwr n v) →
      hostEvent e s = .refused (.reservedRegister n)) ∧
    (∀ buf off, 65535 ≤ off → (e = .hbr buf off ∨ ∃ b, e = .hbw buf off b) →
      hostEvent e s = .refused (.offsetOutsideBuffer buf off)) ∧
    ((∀ n, (e = .hrd n ∨ ∃ v, e = .hwr n v) → ¬ ReservedNumber n) →
      (∀ buf off, (e = .hbr buf off ∨ ∃ b, e = .hbw buf off b) → off < 65535) → ∃ t, hostEvent e s = .next t)

/-- From R180 and R182: HRD returns the register's value zero-extended to 32 bits, CMD returns 0, HBR returns the
byte, whatever the valid length is (R46), and neither changes a register or a byte. That what a read returns is
put at the end of `hostOut` is the model's choice (log entry 2). -/
def Obligations.HostReadsReturnTheValue : Prop :=
  ∀ s : State,
    (∀ n v, (n, v) ∈ registerValues s →
      hostEvent (.hrd n) s = .next { s with hostOut := s.hostOut ++ [.reg (BitVec.ofNat 32 v)] }) ∧
    (∀ buf off, off < 65535 →
      hostEvent (.hbr buf off) s = .next { s with hostOut := s.hostOut ++ [.byte ((s.buffer buf).read off)] })

/-- R181: HWR of a read/write register of width `w` stores `v[w-1:0]` and has no other effect (R16); a write to
ERR or CS_RES does nothing; a write to CMD runs the command `v` spells (R184). -/
def Obligations.HwrKeepsTheLowBits : Prop :=
  ∀ (s : State) (n : Nat) (v : BusWord),
    (∀ w, (n, w) ∈ writableWidths → ∃ t, hostEvent (.hwr n v) s = .next t ∧
      registerValues t = (registerValues s).map (fun p => if p.1 = n then (n, v.toNat % 2 ^ w) else p) ∧
      t.rx = s.rx ∧ t.tx = s.tx ∧ t.pay = s.pay ∧ t.hostIn = s.hostIn ∧ t.hostOut = s.hostOut ∧
      t.draws = s.draws) ∧
    (n = 0x01 ∨ n = 0x0A → hostEvent (.hwr n v) s = .next s) ∧
    (n = 0x00 → (∀ i, decode v = .ok i → hostEvent (.hwr n v) s = exec i s) ∧
      (∀ e, decode v = .error e → hostEvent (.hwr n v) s = .next { s with err := 4 }))

/-- R183: HBW writes that byte of that buffer and nothing else, whatever the valid length is (R46). -/
def Obligations.HbwWritesOneByte : Prop :=
  ∀ (s : State) (buf : BufId) (off : Nat) (b : Byte), off < 65535 →
    ∃ m, hostEvent (.hbw buf off b) s = .next (s.withBuffer buf m) ∧
      m.read off = b ∧ ∀ a, a ≠ off → m.read a = (s.buffer buf).read a

/-- From R187 and R67: LDRX delivers the bytes of one datagram and its length, RDTX returns TXLEN and the bytes of
the frame to send. The lists `hostIn` and `hostOut` are the model's form of the host (log entries 1, 2). -/
def Obligations.FramesAreDeliveredAndCollected : Prop :=
  (∀ (s : State) (bs : List Byte) (rest : List HostEvent), bs.length ≤ 65535 → s.hostIn = ldrx bs ++ rest →
    ∃ m, Host.Core.run core (bs.length + 1) s =
        .next { s with hostIn := rest, rx := m, rxlen := BitVec.ofNat 16 bs.length } ∧
      m.readBytes 0 bs.length = bs ∧ ∀ a, bs.length ≤ a → m.read a = s.rx.read a) ∧
  (∀ (s : State) (rest : List HostEvent), s.hostIn = rdtx s.txlen.toNat ++ rest →
    Host.Core.run core (s.txlen.toNat + 1) s =
      .next { s with hostIn := rest,
                     hostOut := s.hostOut ++ .reg (s.txlen.setWidth 32) :: (txFrame s).map .byte })

/-! ### Reset -/

/-- From R230 and R232: hardware reset leaves the nine registers 0 and the CORE ready for the host's next
transaction; whatever the free values are, the buffers are in canonical form (the model's choice, log entry 5). -/
def Obligations.HardwareResetZeroesTheNineRegisters : Prop :=
  ∀ (s : State) (rest : List HostEvent), s.hostIn = .reset :: rest →
    ∃ t, step s = .next t ∧ AfterReset t ∧ t.Inv ∧ t.hostIn = rest ∧ t.hostOut = s.hostOut

/-- From R30: the reset state has the nine zeroed registers, and meets the invariant. The values it has elsewhere
are the model's choice (log entries 3, 4), and are not stated. -/
def Obligations.ResetStateHasTheResetValues : Prop :=
  AfterReset State.reset ∧ State.reset.Inv

/-- From R31: after reset, whatever the unspecified values are, IP4DEC and ECHO end with TruncatedBuffer. -/
def Obligations.NothingDecodesBeforeAFrameIsLoaded : Prop :=
  ∀ s : State, AfterReset s →
    exec .ip4dec s = .next { s with err := 1 } ∧ exec .echo s = .next { s with err := 1, txlen := 0 }

/-- R186, R231: SRST sets the nine registers to 0 and changes nothing else. -/
def Obligations.SrstZeroesTheNineRegisters : Prop :=
  ∀ s : State, exec .srst s = .next { s with
    rxlen := 0, txlen := 0, paylen := 0, slOff := 0, slLen := 0, csSel := 0, csOff := 0, csLen := 0, err := 0 }

/-! ### The Checksum Engine -/

/-- R91: `words_of_bytes` pairs from the first byte on, big-endian, and pads a last odd byte with a zero low
byte. -/
def Obligations.WordsPairFromTheFirstByte : Prop :=
  ∀ bs : List Byte, (wordsOfBytes bs).length = (bs.length + 1) / 2 ∧
    ∀ k, (2 * k + 1 < bs.length → ((wordsOfBytes bs).getD k 0).toNat =
        (bs.getD (2 * k) 0).toNat * 256 + (bs.getD (2 * k + 1) 0).toNat) ∧
      (2 * k + 1 = bs.length → ((wordsOfBytes bs).getD k 0).toNat = (bs.getD (2 * k) 0).toNat * 256)

/-- R92: the accumulator starts at 0 and is the exact sum for at most 65537 words. -/
def Obligations.AccumulatorIsTheExactSum : Prop :=
  acc [] = 0 ∧ ∀ ws : List Word, ws.length ≤ 65537 → (acc ws).toNat = wordSum ws

/-- R93: the fold follows its recursive definition and ends after at most two replacements, with the bounds
the rule states. -/
def Obligations.FoldEndsAfterTwoReplacements : Prop :=
  ∀ a : BitVec 32,
    (a.toNat ≤ 0xFFFF → (fold16 a).toNat = a.toNat) ∧
    (0xFFFF < a.toNat → fold16 a = fold16 (foldOnce a)) ∧
    (foldOnce a).toNat = a.toNat % 65536 + a.toNat / 65536 ∧ (foldOnce a).toNat ≤ 0x1FFFE ∧
    (foldOnce (foldOnce a)).toNat ≤ 0xFFFF

/-- R97: the closed form of the fold. -/
def Obligations.FoldHasItsClosedForm : Prop :=
  ∀ a : BitVec 32,
    (fold16 a).toNat = if a.toNat = 0 then 0 else (a.toNat - 1) % 0xFFFF + 1

/-- R94 with R92 and R97: the checksum of at most 65537 words, computed from their sum alone. -/
def Obligations.ChecksumIsTheComplementOfTheSum : Prop :=
  ∀ ws : List Word, ws.length ≤ 65537 →
    checksum ws = ~~~ fold16 (acc ws) ∧ (checksum ws).toNat = onesComplement (wordSum ws)

/-- The consequences of R98: the checksum depends on the sum alone (so on no order and on no zero word); when it
is 0xFFFF and when 0; a word sequence that holds its own checksum sums to a checksum of 0, also after the
substitution of R163. -/
def Obligations.ChecksumValidatesToZero : Prop :=
  ∀ ws : List Word, ws.length ≤ 65537 →
    (∀ ws', ws'.length ≤ 65537 → (ws'.Perm ws ∨ ws'.filter (· ≠ 0) = ws.filter (· ≠ 0)) →
      checksum ws' = checksum ws) ∧
    (checksum ws = 0xFFFF#16 ↔ ∀ w ∈ ws, w = 0) ∧
    (checksum ws = 0 ↔ 0 < wordSum ws ∧ 0xFFFF ∣ wordSum ws) ∧
    (∀ before after, ws = before ++ 0 :: after →
      checksum (before ++ checksum ws :: after) = 0 ∧
      (checksum ws = 0 → checksum (before ++ 0xFFFF#16 :: after) = 0))

/-- R99: words of a concatenation, for a first part of even length, and not in general for an odd one; so the
UDP checksum input is `words_of_bytes` of the 12 pseudo-header bytes, the 8 header bytes and the payload. -/
def Obligations.EvenPartsConcatenate : Prop :=
  (∀ a b : List Byte, a.length % 2 = 0 → wordsOfBytes (a ++ b) = wordsOfBytes a ++ wordsOfBytes b) ∧
  (∃ a b : List Byte, a.length % 2 = 1 ∧ wordsOfBytes (a ++ b) ≠ wordsOfBytes a ++ wordsOfBytes b) ∧
  (∀ (f : IpFields) (u : UdpFields) (bs : List Byte), u.csum = 0 →
    udpWords f u bs = wordsOfBytes (addrBytes f.src ++ addrBytes f.dst ++ [0x00, 0x11] ++ wordBytes u.len ++
      udpImage u ++ bs))

/-- R161: the ten words of the header checksum, in numbers, and as the words of the header image with a zero
checksum field. -/
def Obligations.IpChecksumInputIsTheTenWords : Prop :=
  ∀ f : IpFields, (ipWords f).map BitVec.toNat = ipWordsNat f ∧
    ipWords f = wordsOfBytes (ipImage { f with csum := 0 })

/-- R75, R162: the words of the UDP checksum input, in numbers; the protocol word is the constant 17. -/
def Obligations.UdpChecksumInputIsPseudoHeaderHeaderPayload : Prop :=
  ∀ (f : IpFields) (u : UdpFields) (bs : List Byte),
    (udpWords f u bs).map BitVec.toNat = udpHeadWordsNat f u ++ (wordsOfBytes bs).map BitVec.toNat

/-- R100: CSUM. The reserved selector, a range past the valid length, and the result, which is the complement of
the folded sum; nothing but CS_RES and ERR is written. -/
def Obligations.CsumSumsTheSelectedRange : Prop :=
  ∀ s : State,
    (s.csSel = 3 → exec .csum s = .next { s with err := 4 }) ∧
    ∀ buf, (s.csSel = 0 ∧ buf = .rx) ∨ (s.csSel = 1 ∧ buf = .tx) ∨ (s.csSel = 2 ∧ buf = .pay) →
      ((s.validLength buf).toNat < s.csOff.toNat + s.csLen.toNat → exec .csum s = .next { s with err := 1 }) ∧
      (s.csOff.toNat + s.csLen.toNat ≤ (s.validLength buf).toNat →
        exec .csum s = .next { s with
          csRes := BitVec.ofNat 16 (onesComplement (wordSum (wordsOfBytes
            ((s.buffer buf).readBytes s.csOff.toNat s.csLen.toNat))))
          err := 0 })

/-! ### The IPv4 Header Codec -/

/-- R111, R113: IP4DEC. Its errors in their order, the twelve fields it loads, and that nothing else but ERR
is written. -/
def Obligations.Ip4decLoadsTheTwelveFields : Prop :=
  ∀ s : State,
    (s.rxlen.toNat < 20 → exec .ip4dec s = .next { s with err := 1 }) ∧
    (20 ≤ s.rxlen.toNat → (byteNat s.rx 0 % 16 < 5 ∨ s.rxlen.toNat < headerLen s.rx) →
      exec .ip4dec s = .next { s with err := 2 }) ∧
    (20 ≤ s.rxlen.toNat → 5 ≤ byteNat s.rx 0 % 16 → headerLen s.rx ≤ s.rxlen.toNat →
      exec .ip4dec s = .next { s with ip := ipFieldsOf s.rx, err := 0 })

/-- R115, R116: IP4ENC. Its two tests, the 20 bytes it writes, TXLEN, and that every other byte and register is
unchanged. -/
def Obligations.Ip4encWritesTheFixedHeader : Prop :=
  ∀ s : State,
    (s.ip.tlen.toNat < s.ip.ihl.toNat * 4 ∨ s.ip.tlen.toNat < 20 → exec .ip4enc s = .next { s with err := 3 }) ∧
    (s.ip.ihl.toNat * 4 ≤ s.ip.tlen.toNat → 20 ≤ s.ip.tlen.toNat →
      ∃ m, exec .ip4enc s = .next { s with tx := m, txlen := s.ip.tlen, err := 0 } ∧
        (m.readBytes 0 20).map BitVec.toNat = ipImageNat s.ip ∧ ∀ a, 20 ≤ a → m.read a = s.tx.read a)

/-- R117: IP4DEC then IP4ENC gives back the 20 header bytes and the total length field, and the whole buffer
when it is 20 bytes long. -/
def Obligations.Ip4DecodeEncodeRoundTrip : Prop :=
  ∀ s t : State, exec .ip4dec s = .next t → t.err = 0 → t.ip.ihl.toNat * 4 ≤ t.ip.tlen.toNat →
    ∃ u, exec .ip4enc t = .next u ∧ u.err = 0 ∧ u.tx.readBytes 0 20 = s.rx.readBytes 0 20 ∧
      u.txlen.toNat = field16 s.rx 2 ∧
      (byteNat s.rx 0 % 16 = 5 → field16 s.rx 2 = 20 → s.rxlen.toNat = 20 → txFrame u = rxFrame s)

/-! ### The UDP Header Codec -/

/-- R131: UDPDEC. Its two tests, the four fields, the payload and its length, and that nothing else is written;
the length field bounds nothing (R130). -/
def Obligations.UdpdecCopiesTheSlice : Prop :=
  ∀ s : State,
    (s.rxlen.toNat < s.slOff.toNat + s.slLen.toNat ∨ s.slLen.toNat < 8 →
      exec .udpdec s = .next { s with err := 1 }) ∧
    (s.slOff.toNat + s.slLen.toNat ≤ s.rxlen.toNat → 8 ≤ s.slLen.toNat →
      ∃ m, exec .udpdec s = .next { s with
            udp := udpFieldsOf s.rx s.slOff.toNat, pay := m, paylen := BitVec.ofNat 16 (s.slLen.toNat - 8), err := 0 } ∧
        (∀ k, k < s.slLen.toNat - 8 → m.read k = s.rx.read (s.slOff.toNat + 8 + k)) ∧
        ∀ a, s.slLen.toNat - 8 ≤ a → m.read a = s.pay.read a)

/-- R135: UDPENC. Its two tests on natural numbers, the header and payload it writes at SL_OFF, TXLEN, and that
every other byte and register is unchanged. -/
def Obligations.UdpencWritesHeaderAndPayload : Prop :=
  ∀ s : State,
    (s.udp.len.toNat ≠ 8 + s.paylen.toNat ∨ 65535 < s.slOff.toNat + s.udp.len.toNat →
      exec .udpenc s = .next { s with err := 3 }) ∧
    (s.udp.len.toNat = 8 + s.paylen.toNat → s.slOff.toNat + s.udp.len.toNat ≤ 65535 →
      ∃ m, exec .udpenc s = .next { s with
            tx := m, txlen := BitVec.ofNat 16 (s.slOff.toNat + s.udp.len.toNat), err := 0 } ∧
        (m.readBytes s.slOff.toNat 8).map BitVec.toNat = udpImageNat s.udp ∧
        (∀ k, k < s.paylen.toNat → m.read (s.slOff.toNat + 8 + k) = s.pay.read k) ∧
        ∀ a, (a < s.slOff.toNat ∨ s.slOff.toNat + s.udp.len.toNat ≤ a) → m.read a = s.tx.read a)

/-- R137: UDPDEC then UDPENC gives back the slice when the length field agrees with it, and fails with
InvalidLength when it does not. -/
def Obligations.UdpDecodeEncodeRoundTrip : Prop :=
  ∀ s t : State, exec .udpdec s = .next t → t.err = 0 →
    (t.udp.len = t.slLen → ∃ u, exec .udpenc t = .next u ∧ u.err = 0 ∧
      u.tx.readBytes s.slOff.toNat s.slLen.toNat = s.rx.readBytes s.slOff.toNat s.slLen.toNat ∧
      u.txlen.toNat = s.slOff.toNat + s.slLen.toNat) ∧
    (t.udp.len ≠ t.slLen → exec .udpenc t = .next { t with err := 3 })

/-! ### The Echo Transform -/

/-- R152: SLICE. Its two tests and the slice, and that nothing else is written. -/
def Obligations.SliceDelimitsThePayload : Prop :=
  ∀ s : State,
    (s.ip.tlen.toNat < s.ip.ihl.toNat * 4 ∨ s.rxlen.toNat < s.ip.tlen.toNat →
      exec .slice s = .next { s with err := 2 }) ∧
    (s.ip.ihl.toNat * 4 ≤ s.ip.tlen.toNat → s.ip.tlen.toNat ≤ s.rxlen.toNat →
      exec .slice s = .next { s with
        slOff := BitVec.ofNat 16 (s.ip.ihl.toNat * 4)
        slLen := BitVec.ofNat 16 (s.ip.tlen.toNat - s.ip.ihl.toNat * 4)
        err := 0 })

/-- R158: OPTCPY. Its test, the bytes it carries, and that every other byte and register, TXLEN among them, is
unchanged. -/
def Obligations.OptcpyCarriesTheOptionBytes : Prop :=
  ∀ s : State,
    (s.rxlen.toNat < s.slOff.toNat → exec .optcpy s = .next { s with err := 1 }) ∧
    (s.slOff.toNat ≤ s.rxlen.toNat → ∃ m, exec .optcpy s = .next { s with tx := m, err := 0 } ∧
      ∀ a, m.read a = if 20 ≤ a ∧ a < s.slOff.toNat then s.rx.read a else s.tx.read a)

/-- R160, R163: XFORM swaps the endpoints, stores both checksums over the swapped values, with the substitution
of `UDP_ZERO_SUBST` on the UDP checksum alone, and writes nothing else but ERR. It holds whatever the value of
the parameter is (log entry 6). -/
def Obligations.XformSwapsAndRecomputes : Prop :=
  ∀ s : State,
    exec .xform s = .next { s with
      ip := { s.ip with src := s.ip.dst, dst := s.ip.src, csum := BitVec.ofNat 16 (onesComplement
        (ipWordsNat { s.ip with src := s.ip.dst, dst := s.ip.src }).sum) }
      udp := { s.udp with sport := s.udp.dport, dport := s.udp.sport,
                          csum := BitVec.ofNat 16 (afterSubstitution Config.udpZeroSubst (onesComplement
        ((udpHeadWordsNat { s.ip with src := s.ip.dst, dst := s.ip.src }
            { s.udp with sport := s.udp.dport, dport := s.udp.sport }).sum +
          wordSum (wordsOfBytes (payload s))))) }
      err := 0 }

/-- R104: the endpoint swap changes neither checksum value. -/
def Obligations.SwapKeepsBothChecksums : Prop :=
  ∀ s t : State, exec .xform s = .next t →
    t.ip.csum = checksum (ipWords s.ip) ∧
    t.udp.csum = substituteZero Config.udpZeroSubst (checksum (udpWords s.ip s.udp (payload s)))

/-- R165: XFORM twice restores the endpoints and leaves the checksums as the first application set them. -/
def Obligations.XformTwiceRestoresTheEndpoints : Prop :=
  ∀ s : State, ∃ t u, exec .xform s = .next t ∧ exec .xform t = .next u ∧
    u.ip = { s.ip with csum := t.ip.csum } ∧ u.udp = { s.udp with csum := t.udp.csum } ∧
    u = { t with ip := u.ip, udp := u.udp }

/-- R203: the outcome of ECHO is the table's, for every state, and the failing stage is the table's: of the stages
issued one by one, those before it end with ERR 0 and it ends with the code. R171: on an error TXLEN is 0. -/
def Obligations.EchoOutcomeFollowsTheFrame : Prop :=
  ∀ s : State, ∃ t, exec .echo s = .next t ∧ t.err.toNat = echoCode s ∧ (t.err ≠ 0 → t.txlen = 0) ∧
    (echoStage s = 0 ↔ t.err = 0) ∧
    ∀ k, echoStage s = k + 1 → ∃ i u v, echoCommands[k]? = some i ∧
      runCommands (echoCommands.take k) { s with err := 0 } = .next u ∧ u.err = 0 ∧
      exec i u = .next v ∧ v.err = t.err

/-- R172, with the equations of R139: what a successful ECHO leaves, byte by byte and register by register; ECHO
succeeds exactly on the frames of R203's last row. -/
def Obligations.EchoSuccessPostcondition : Prop :=
  ∀ s : State, (∀ t, exec .echo s = .next t → (t.err = 0 ↔ EchoAccepts s)) ∧
    (EchoAccepts s →
      let h := headerLen s.rx
      let n := field16 s.rx 2
      ∃ t, exec .echo s = .next t ∧ t.err = 0 ∧ t.txlen.toNat = n ∧
        (∀ a, a < 10 → t.tx.read a = s.rx.read a) ∧
        field16 t.tx 10 = onesComplement (field16 s.rx 0 + field16 s.rx 2 + field16 s.rx 4 + field16 s.rx 6 +
          field16 s.rx 8 + field16 s.rx 12 + field16 s.rx 14 + field16 s.rx 16 + field16 s.rx 18) ∧
        (∀ k, k < 4 → t.tx.read (12 + k) = s.rx.read (16 + k) ∧ t.tx.read (16 + k) = s.rx.read (12 + k)) ∧
        (∀ a, 20 ≤ a → a < h → t.tx.read a = s.rx.read a) ∧
        (∀ k, k < 2 → t.tx.read (h + k) = s.rx.read (h + 2 + k) ∧ t.tx.read (h + 2 + k) = s.rx.read (h + k) ∧
          t.tx.read (h + 4 + k) = s.rx.read (h + 4 + k)) ∧
        field16 t.tx (h + 6) = afterSubstitution Config.udpZeroSubst (onesComplement (field16 s.rx 12 +
          field16 s.rx 14 + field16 s.rx 16 + field16 s.rx 18 + 17 + (n - h) + field16 s.rx h +
          field16 s.rx (h + 2) + (n - h) + wordSum (wordsOfBytes (s.rx.readBytes (h + 8) (n - h - 8))))) ∧
        (∀ a, h + 8 ≤ a → a < n → t.tx.read a = s.rx.read a) ∧
        (∀ a, n ≤ a → t.tx.read a = s.tx.read a) ∧
        t.ip = ipFieldsOf t.tx ∧ t.udp = udpFieldsOf t.tx h ∧
        t.slOff.toNat = h ∧ t.slLen.toNat = n - h ∧ t.paylen.toNat = n - h - 8 ∧
        (∀ k, k < n - h - 8 → t.pay.read k = s.rx.read (h + 8 + k)) ∧
        (∀ a, n - h - 8 ≤ a → t.pay.read a = s.pay.read a) ∧
        t.udp.len.toNat = 8 + t.paylen.toNat ∧ t.udp.len = t.slLen ∧
        t.slLen.toNat = t.ip.tlen.toNat - t.ip.ihl.toNat * 4 ∧
        t = { s with tx := t.tx, txlen := t.txlen, ip := t.ip, udp := t.udp, slOff := t.slOff,
                     slLen := t.slLen, pay := t.pay, paylen := t.paylen, err := 0 })

/-- R173, and with it R171: ECHO leaves what its seven commands, issued one after another up to the first error,
leave, with the same ERR; on an error TXLEN becomes 0 and the completed commands' writes stay. -/
def Obligations.EchoEqualsItsCommandSequence : Prop :=
  ∀ s : State, ∃ t u, exec .echo s = .next t ∧ runCommands echoCommands s = .next u ∧ t.err = u.err ∧
    (t.err = 0 → t = u) ∧ (t.err ≠ 0 → t = { u with txlen := 0 })

/-- R175: ECHO of an echoed frame succeeds and gives the first frame with its two checksum fields as ECHO
computes them; if they were already so, it gives the first frame's datagram exactly. -/
def Obligations.EchoOfAnEchoedFrame : Prop :=
  ∀ s t s' : State, exec .echo s = .next t → t.err = 0 → rxFrame s' = txFrame t →
    let h := headerLen s.rx
    ∃ u, exec .echo s' = .next u ∧ u.err = 0 ∧ u.txlen = t.txlen ∧
      (∀ a, a < t.txlen.toNat → u.tx.read a =
        if a = 10 ∨ a = 11 ∨ a = h + 6 ∨ a = h + 7 then t.tx.read a else s.rx.read a) ∧
      (t.tx.read 10 = s.rx.read 10 → t.tx.read 11 = s.rx.read 11 → t.tx.read (h + 6) = s.rx.read (h + 6) →
        t.tx.read (h + 7) = s.rx.read (h + 7) → txFrame u = s.rx.readBytes 0 t.txlen.toNat)

/-- R170: the outcome of ECHO, and on success the frame, the payload and every register a stage writes, depend
on the received frame alone. -/
def Obligations.EchoDependsOnTheFrameAlone : Prop :=
  ∀ s s' : State, rxFrame s = rxFrame s' →
    ∃ t t', exec .echo s = .next t ∧ exec .echo s' = .next t' ∧ t.err = t'.err ∧
      (t.err ≠ 0 → t.txlen = t'.txlen) ∧
      (t.err = 0 → txFrame t = txFrame t' ∧ payload t = payload t' ∧ t.ip = t'.ip ∧ t.udp = t'.udp ∧
        t.slOff = t'.slOff ∧ t.slLen = t'.slLen)

/-! ### Rules of the whole machine -/

/-- R208 with R18: every command, in every state, ends in a next state with a legal code in ERR, and touches
neither RXBUF nor anything of the host's. -/
def Obligations.EveryCommandEnds : Prop :=
  ∀ (i : Instr) (s : State), ∃ t, exec i s = .next t ∧ t.err.toNat ≤ 4 ∧ t.rx = s.rx ∧ t.hostIn = s.hostIn ∧
    t.hostOut = s.hostOut ∧ t.draws = s.draws

/-- R18: no command reads ERR, so no command's result depends on it. -/
def Obligations.NoCommandReadsErr : Prop :=
  ∀ (i : Instr) (s : State) (e : BitVec 3), exec i { s with err := e } = exec i s

/-- R206, R119, R138: a standalone command that fails has written nothing but ERR. -/
def Obligations.FailingCommandWritesOnlyErr : Prop :=
  ∀ (i : Instr) (s t : State), i ≠ .echo → exec i s = .next t → t.err ≠ 0 → t = { s with err := t.err }

/-- The written-by columns of R12, R14, R21 and R23: a register or buffer keeps its value under every command
that is not listed as writing it. -/
def Obligations.CommandsWriteOnlyWhatTheTablesList : Prop :=
  ∀ (i : Instr) (s t : State), exec i s = .next t →
    t.rx = s.rx ∧ (i ∉ [.ip4enc, .udpenc, .optcpy, .echo] → t.tx = s.tx) ∧
    (i ∉ [.udpdec, .echo] → t.pay = s.pay) ∧ (i ≠ .srst → t.rxlen = s.rxlen) ∧
    (i ∉ [.ip4enc, .udpenc, .echo, .srst] → t.txlen = s.txlen) ∧
    (i ∉ [.udpdec, .echo, .srst] → t.paylen = s.paylen) ∧
    (i ∉ [.slice, .echo, .srst] → t.slOff = s.slOff ∧ t.slLen = s.slLen) ∧
    (i ≠ .srst → t.csSel = s.csSel ∧ t.csOff = s.csOff ∧ t.csLen = s.csLen) ∧
    (i ≠ .csum → t.csRes = s.csRes) ∧
    (i ∉ [.ip4dec, .xform, .echo] → t.ip = s.ip) ∧ (i ∉ [.udpdec, .xform, .echo] → t.udp = s.udp) ∧
    (i = .xform → t.udp.len = s.udp.len ∧
      t.ip = { s.ip with csum := t.ip.csum, src := t.ip.src, dst := t.ip.dst })

/-- R45: no command reads a buffer byte at or above that buffer's valid length. If such a byte is changed, the
command ends in the same state but for that buffer, which reads the same but at that byte. -/
def Obligations.StaleBytesAreNeverRead : Prop :=
  ∀ (i : Instr) (s t : State) (buf : BufId) (a : Nat) (b : Byte), (s.validLength buf).toNat ≤ a →
    exec i s = .next t →
    ∃ m, exec i (s.withBuffer buf ((s.buffer buf).write a b)) = .next (t.withBuffer buf m) ∧
      ∀ k, k ≠ a → m.read k = (t.buffer buf).read k

/-- R22, R45 and R18: every step keeps the buffers in canonical form inside `BUF_MAX` bytes and ERR among its
legal codes. -/
def Obligations.StepKeepsTheInvariant : Prop :=
  ∀ s t : State, s.Inv → step s = .next t → t.Inv

/-! ### The pseudo-instructions of the host notation (R67) -/

/-- From R67: the six expansions, line by line. That ECHOX and ECHOSEQ are lists of lines with `checkErr` for
`RD ERR` and the host's test is the model's form of a host that looks at a value (log entry 15). -/
def Obligations.PseudoInstructionsExpandAsTheTable : Prop :=
  (∀ bs : List Byte,
    ldrx bs = (List.range bs.length).map (fun k => .hbw .rx k (bs.getD k 0)) ++
      [.hwr 0x02 (BitVec.ofNat 32 bs.length)] ∧
    ldpay bs = (List.range bs.length).map (fun k => .hbw .pay k (bs.getD k 0)) ++
      [.hwr 0x04 (BitVec.ofNat 32 bs.length)]) ∧
  (∀ n : Nat, rdtx n = .hrd 0x03 :: (List.range n).map (fun k => .hbr .tx k)) ∧
  (∀ off len : BusWord,
    csumr .rx off len =
      [.hwr 0x07 0, .hwr 0x08 off, .hwr 0x09 len, .hwr 0x00 0x00000001, .hrd 0x01, .hrd 0x0A] ∧
    csumr .tx off len =
      [.hwr 0x07 1, .hwr 0x08 off, .hwr 0x09 len, .hwr 0x00 0x00000001, .hrd 0x01, .hrd 0x0A] ∧
    csumr .pay off len =
      [.hwr 0x07 2, .hwr 0x08 off, .hwr 0x09 len, .hwr 0x00 0x00000001, .hrd 0x01, .hrd 0x0A]) ∧
  echox = [.transact (.hwr 0x00 0x00000007), .transact (.hwr 0x00 0x00000003), .checkErr,
    .transact (.hwr 0x00 0x00000005), .checkErr] ∧
  echoseq = [.transact (.hwr 0x00 0x00000002), .checkErr, .transact (.hwr 0x00 0x00000006), .checkErr,
    .transact (.hwr 0x00 0x00000004), .checkErr, .transact (.hwr 0x00 0x00000007), .checkErr,
    .transact (.hwr 0x00 0x00000003), .checkErr, .transact (.hwr 0x00 0x00000009), .checkErr,
    .transact (.hwr 0x00 0x00000005), .checkErr]

/-- From R67 with R48 and R173: ECHOSEQ leaves what its seven commands leave, and returns to the host one value of
ERR for each command that ran, all 0 but the last on an error. The replies stand in `hostOut` (log entries 2, 15). -/
def Obligations.EchoseqRunsItsCommandsAndReadsErr : Prop :=
  ∀ s : State, ∃ u, runCommands echoCommands s = .next u ∧
    runLines echoseq s = .next { u with
      hostOut := s.hostOut ++ (if u.err = 0 then List.replicate 7 (.reg 0)
        else List.replicate (echoStage s - 1) (.reg 0) ++ [.reg (u.err.setWidth 32)]) }

/-- From R67: ECHOX runs XFORM, IP4ENC and UDPENC on the registers and stops at the first of the last two that
leaves ERR other than 0; the values of ERR it reads stand in `hostOut` (log entries 2, 15). -/
def Obligations.EchoxTransformsAndEncodes : Prop :=
  ∀ s : State, ∃ x, exec .xform s = .next x ∧
    (s.ip.tlen.toNat < s.ip.ihl.toNat * 4 ∨ s.ip.tlen.toNat < 20 →
      runLines echox s = .next { x with err := 3, hostOut := s.hostOut ++ [.reg 3] }) ∧
    (s.ip.ihl.toNat * 4 ≤ s.ip.tlen.toNat → 20 ≤ s.ip.tlen.toNat → ∃ e, exec .ip4enc x = .next e ∧ e.err = 0 ∧
      (s.udp.len.toNat ≠ 8 + s.paylen.toNat ∨ 65535 < s.slOff.toNat + s.udp.len.toNat →
        runLines echox s = .next { e with err := 3, hostOut := s.hostOut ++ [.reg 0, .reg 3] }) ∧
      (s.udp.len.toNat = 8 + s.paylen.toNat → s.slOff.toNat + s.udp.len.toNat ≤ 65535 →
        ∃ u, exec .udpenc e = .next u ∧ u.err = 0 ∧
          runLines echox s = .next { u with hostOut := s.hostOut ++ [.reg 0, .reg 0] }))

/-- From R67 with R100: CSUMR, carried out by the step. Offset and length keep their low 16 bits (R16); ERR and
CS_RES are returned, CS_RES keeping its value when the range passes the valid length. The lists `hostIn` and
`hostOut` are the model's form of the host (log entries 1, 2). -/
def Obligations.CsumrReturnsErrAndTheChecksum : Prop :=
  ∀ (s : State) (buf : BufId) (off len : BusWord) (rest : List HostEvent),
    s.hostIn = csumr buf off len ++ rest →
    let o := off.toNat % 65536
    let n := len.toNat % 65536
    let t := { s with hostIn := rest, csSel := BitVec.ofNat 2 buf.number, csOff := BitVec.ofNat 16 o,
                      csLen := BitVec.ofNat 16 n }
    ((s.validLength buf).toNat < o + n → Host.Core.run core 6 s =
      .next { t with err := 1, hostOut := s.hostOut ++ [.reg 1, .reg (s.csRes.setWidth 32)] }) ∧
    (o + n ≤ (s.validLength buf).toNat →
      let c := onesComplement (wordSum (wordsOfBytes ((s.buffer buf).readBytes o n)))
      Host.Core.run core 6 s = .next { t with
        csRes := BitVec.ofNat 16 c, err := 0, hostOut := s.hostOut ++ [.reg 0, .reg (BitVec.ofNat 32 c)] })
end

