-- ==== Sys2Proof/Laws/Memory.lean ====
section
/-! SUPPORT. The laws of a buffer: a read after a write, what a write leaves alone, the canonical form that
every operation keeps, and that a buffer in canonical form is determined by what it reads as. -/

namespace Sys2Proof.Machine

/-! ### Cells -/

theorem readCells_eraseCells_same (off : Nat) (cs : List Host.Cell) :
    readCells off (eraseCells off cs) = Memory.unwritten := by
  induction cs with
  | nil => rfl
  | cons c rest ih =>
    obtain ⟨k, v⟩ := c
    by_cases h : k = off <;> simp [eraseCells, readCells, h, ih]

theorem readCells_eraseCells_other {off a : Nat} (h : a ≠ off) (cs : List Host.Cell) :
    readCells a (eraseCells off cs) = readCells a cs := by
  induction cs with
  | nil => rfl
  | cons c rest ih =>
    obtain ⟨k, v⟩ := c
    by_cases hk : k = off
    · simp [eraseCells, readCells, hk, ih, Ne.symm h]
    · simp [eraseCells, readCells, hk, ih]

theorem readCells_insertCells_other {off a : Nat} (h : a ≠ off) (b : Byte) (cs : List Host.Cell) :
    readCells a (insertCells off b cs) = readCells a cs := by
  induction cs with
  | nil => simp [insertCells, readCells, Ne.symm h]
  | cons c rest ih =>
    obtain ⟨k, v⟩ := c
    by_cases hk : off < k
    · simp [insertCells, readCells, hk, Ne.symm h]
    · simp [insertCells, readCells, hk, ih]

theorem readCells_insertCells_same (off : Nat) (b : Byte) (cs : List Host.Cell) :
    readCells off (insertCells off b (eraseCells off cs)) = b := by
  induction cs with
  | nil => simp [eraseCells, insertCells, readCells]
  | cons c rest ih =>
    obtain ⟨k, v⟩ := c
    by_cases hk : k = off
    · simp [eraseCells, hk, ih]
    · by_cases hlt : off < k
      · simp [eraseCells, insertCells, readCells, hk, hlt]
      · simp [eraseCells, insertCells, readCells, hk, hlt, ih]

/-! ### One byte -/

@[simp] theorem Memory.read_write_same (m : Memory) (off : Nat) (b : Byte) :
    (m.write off b).read off = b := by
  by_cases h : b = Memory.unwritten
  · simp [Memory.read, Memory.write, writeCells, h, readCells_eraseCells_same]
  · simp [Memory.read, Memory.write, writeCells, h, readCells_insertCells_same]

theorem Memory.read_write_other (m : Memory) {off a : Nat} (h : a ≠ off) (b : Byte) :
    (m.write off b).read a = m.read a := by
  by_cases hb : b = Memory.unwritten
  · simp [Memory.read, Memory.write, writeCells, hb, readCells_eraseCells_other h]
  · simp [Memory.read, Memory.write, writeCells, hb, readCells_insertCells_other h,
      readCells_eraseCells_other h]

/-! ### Byte ranges -/

@[simp] theorem Memory.length_readBytes (m : Memory) (off n : Nat) : (m.readBytes off n).length = n := by
  induction n generalizing off with
  | zero => rfl
  | succ n ih => simp [Memory.readBytes, ih]

theorem Memory.getElem_readBytes (m : Memory) (off n i : Nat) (h : i < (m.readBytes off n).length) :
    (m.readBytes off n)[i] = m.read (off + i) := by
  induction n generalizing off i with
  | zero => simp [Memory.readBytes] at h
  | succ n ih =>
    cases i with
    | zero => simp [Memory.readBytes]
    | succ i =>
      simp only [Memory.readBytes, List.getElem_cons_succ]
      rw [ih]; congr 1; omega

/-- Two ranges that read alike are equal as byte sequences. -/
theorem Memory.readBytes_congr {m m' : Memory} {off off' n : Nat}
    (h : ∀ i, i < n → m.read (off + i) = m'.read (off' + i)) :
    m.readBytes off n = m'.readBytes off' n := by
  apply List.ext_getElem (by simp)
  intro i h1 h2
  rw [Memory.getElem_readBytes, Memory.getElem_readBytes]
  exact h i (by simpa using h1)

/-- Equal byte sequences read alike at each offset. -/
theorem Memory.read_of_readBytes_eq {m m' : Memory} {off off' n : Nat}
    (h : m.readBytes off n = m'.readBytes off' n) {i : Nat} (hi : i < n) :
    m.read (off + i) = m'.read (off' + i) := by
  have h1 := Memory.getElem_readBytes m off n i (by simpa using hi)
  have h2 := Memory.getElem_readBytes m' off' n i (by simpa using hi)
  rw [← h1, ← h2]; simp [h]

theorem Memory.readBytes_append (m : Memory) (off n k : Nat) :
    m.readBytes off (n + k) = m.readBytes off n ++ m.readBytes (off + n) k := by
  induction n generalizing off with
  | zero => simp [Memory.readBytes]
  | succ n ih =>
    rw [show n + 1 + k = (n + k) + 1 by omega]
    simp only [Memory.readBytes, List.cons_append, ih]
    rw [show off + 1 + n = off + (n + 1) by omega]

/-- A write of bytes leaves every byte outside its range alone. -/
theorem Memory.read_writeBytes_outside (m : Memory) (off : Nat) (bs : List Byte) {a : Nat}
    (h : a < off ∨ off + bs.length ≤ a) : (m.writeBytes off bs).read a = m.read a := by
  induction bs generalizing m off with
  | nil => rfl
  | cons b bs ih =>
    simp only [List.length_cons] at h
    rw [Memory.writeBytes, ih _ _ (by omega), Memory.read_write_other _ (by omega)]

/-- A byte of the range just written reads as the byte written. -/
theorem Memory.read_writeBytes_inside (m : Memory) (off : Nat) (bs : List Byte) {i : Nat}
    (h : i < bs.length) : (m.writeBytes off bs).read (off + i) = bs[i] := by
  induction bs generalizing m off i with
  | nil => simp at h
  | cons b bs ih =>
    cases i with
    | zero =>
      simp only [Memory.writeBytes, Nat.add_zero, List.getElem_cons_zero]
      rw [Memory.read_writeBytes_outside _ _ _ (by omega), Memory.read_write_same]
    | succ i =>
      simp only [Memory.writeBytes, List.getElem_cons_succ]
      rw [show off + (i + 1) = off + 1 + i by omega]
      exact ih _ _ (by simpa using h)

theorem Memory.readBytes_writeBytes_same (m : Memory) (off : Nat) (bs : List Byte) :
    (m.writeBytes off bs).readBytes off bs.length = bs := by
  apply List.ext_getElem (by simp)
  intro i _ h2
  rw [Memory.getElem_readBytes, Memory.read_writeBytes_inside _ _ _ h2]

theorem Memory.readBytes_writeBytes_disjoint (m : Memory) (off : Nat) (bs : List Byte) {a n : Nat}
    (h : a + n ≤ off ∨ off + bs.length ≤ a) :
    (m.writeBytes off bs).readBytes a n = m.readBytes a n :=
  Memory.readBytes_congr fun i hi => Memory.read_writeBytes_outside _ _ _ (by omega)

theorem Memory.read_copyFrom_inside (d src : Memory) (doff soff n : Nat) {i : Nat} (h : i < n) :
    (d.copyFrom doff src soff n).read (doff + i) = src.read (soff + i) := by
  rw [Memory.copyFrom, Memory.read_writeBytes_inside _ _ _ (by simpa using h), Memory.getElem_readBytes]

theorem Memory.read_copyFrom_outside (d src : Memory) (doff soff n : Nat) {a : Nat}
    (h : a < doff ∨ doff + n ≤ a) : (d.copyFrom doff src soff n).read a = d.read a :=
  Memory.read_writeBytes_outside _ _ _ (by simpa using h)

/-! ### The canonical form -/

theorem cellsWf_mono {lo lo' : Nat} (h : lo' ≤ lo) {cs : List Host.Cell} (hw : cellsWf lo cs = true) :
    cellsWf lo' cs = true := by
  cases cs with
  | nil => rfl
  | cons c rest =>
    obtain ⟨k, v⟩ := c
    simp only [cellsWf, Bool.and_eq_true, decide_eq_true_eq] at hw ⊢
    exact ⟨⟨⟨by omega, hw.1.1.2⟩, hw.1.2⟩, hw.2⟩

theorem cellsWf_eraseCells (off : Nat) {lo : Nat} {cs : List Host.Cell} (hw : cellsWf lo cs = true) :
    cellsWf lo (eraseCells off cs) = true := by
  induction cs generalizing lo with
  | nil => rfl
  | cons c rest ih =>
    obtain ⟨k, v⟩ := c
    simp only [cellsWf, Bool.and_eq_true, decide_eq_true_eq] at hw
    by_cases h : k = off
    · simp only [eraseCells, h, if_true]
      exact cellsWf_mono (by omega) (ih hw.2)
    · simp [eraseCells, h, cellsWf, hw.1.1.1, hw.1.1.2, hw.1.2, ih hw.2]

theorem cellsWf_insertCells {off : Nat} {b : Byte} (hb : b ≠ Memory.unwritten) (hoff : off < Config.bufMax)
    {lo : Nat} (hlo : lo ≤ off) {cs : List Host.Cell} (hw : cellsWf lo cs = true) :
    cellsWf lo (insertCells off b (eraseCells off cs)) = true := by
  induction cs generalizing lo with
  | nil => simp [eraseCells, insertCells, cellsWf, hlo, hoff, hb]
  | cons c rest ih =>
    obtain ⟨k, v⟩ := c
    simp only [cellsWf, Bool.and_eq_true, decide_eq_true_eq] at hw
    by_cases h : k = off
    · simp only [eraseCells, h, if_true]
      exact ih hlo (cellsWf_mono (by omega) hw.2)
    · by_cases hlt : off < k
      · simp [eraseCells, h, insertCells, hlt, cellsWf, hlo, hoff, hb, hw.1.1.2, hw.1.2,
          cellsWf_eraseCells off hw.2]
      · simp [eraseCells, h, insertCells, hlt, cellsWf, hw.1.1.1, hw.1.1.2, hw.1.2,
          ih (by omega) hw.2]

theorem Memory.wf_empty : Memory.wf ⟨[]⟩ = true := rfl

/-- A write below `BUF_MAX` keeps the canonical form. -/
theorem Memory.wf_write {m : Memory} (hw : m.wf = true) {off : Nat} (h : off < Config.bufMax) (b : Byte) :
    (m.write off b).wf = true := by
  by_cases hb : b = Memory.unwritten
  · simpa [Memory.wf, Memory.write, writeCells, hb] using cellsWf_eraseCells off hw
  · simpa [Memory.wf, Memory.write, writeCells, hb] using cellsWf_insertCells hb h (Nat.zero_le _) hw

/-- A write of bytes that lies inside the buffer keeps the canonical form. -/
theorem Memory.wf_writeBytes {m : Memory} (hw : m.wf = true) {off : Nat} {bs : List Byte}
    (h : off + bs.length ≤ Config.bufMax) : (m.writeBytes off bs).wf = true := by
  induction bs generalizing m off with
  | nil => exact hw
  | cons b bs ih =>
    simp only [List.length_cons] at h
    exact ih (Memory.wf_write hw (by omega) b) (by omega)

theorem Memory.wf_copyFrom {d : Memory} (hw : d.wf = true) {doff n : Nat} (src : Memory) (soff : Nat)
    (h : doff + n ≤ Config.bufMax) : (d.copyFrom doff src soff n).wf = true :=
  Memory.wf_writeBytes hw (by simpa using h)

theorem cellsWf_filter_map (f : Nat → Byte) (lo n : Nat) (h : lo + n ≤ Config.bufMax) :
    cellsWf lo (((List.range' lo n).map fun off => (off, f off)).filter
      fun c => c.2 ≠ Memory.unwritten) = true := by
  induction n generalizing lo with
  | zero => rfl
  | succ n ih =>
    have htail := ih (lo + 1) (by omega)
    rw [List.range'_succ, List.map_cons]
    by_cases hv : f lo = Memory.unwritten
    · rw [List.filter_cons_of_neg (by simpa using hv)]
      exact cellsWf_mono (by omega) htail
    · rw [List.filter_cons_of_pos (by simpa using hv)]
      have hlt : lo < Config.bufMax := by omega
      rw [cellsWf, htail]
      simp [hlt, hv]

/-- The buffer a hardware reset draws is in canonical form (R230). -/
theorem wf_drawBuffer (n : Nat) (buf : BufId) : (drawBuffer n buf).wf = true := by
  unfold drawBuffer Memory.wf
  rw [List.range_eq_range']
  exact cellsWf_filter_map (Config.drawByte n buf.number) 0 _ (Nat.le_of_eq (Nat.zero_add _))

/-! ### A buffer in canonical form is what it reads as -/

theorem readCells_below {lo a : Nat} (h : a < lo) {cs : List Host.Cell} (hw : cellsWf lo cs = true) :
    readCells a cs = Memory.unwritten := by
  induction cs generalizing lo with
  | nil => rfl
  | cons c rest ih =>
    obtain ⟨k, v⟩ := c
    simp only [cellsWf, Bool.and_eq_true, decide_eq_true_eq] at hw
    have hk : k ≠ a := by omega
    simp only [readCells, hk, if_false]
    exact ih (lo := k + 1) (by omega) hw.2

theorem cells_ext {lo : Nat} {cs ds : List Host.Cell} (hc : cellsWf lo cs = true) (hd : cellsWf lo ds = true)
    (h : ∀ a, readCells a cs = readCells a ds) : cs = ds := by
  induction cs generalizing lo ds with
  | nil =>
    cases ds with
    | nil => rfl
    | cons d ds =>
      obtain ⟨k, v⟩ := d
      simp only [cellsWf, Bool.and_eq_true, decide_eq_true_eq] at hd
      have := h k
      simp only [readCells, if_true] at this
      exact absurd this.symm hd.1.2
  | cons c cs ih =>
    obtain ⟨k, v⟩ := c
    simp only [cellsWf, Bool.and_eq_true, decide_eq_true_eq] at hc
    cases ds with
    | nil =>
      have := h k
      simp only [readCells, if_true] at this
      exact absurd this hc.1.2
    | cons d ds =>
      obtain ⟨j, w⟩ := d
      simp only [cellsWf, Bool.and_eq_true, decide_eq_true_eq] at hd
      have hkj : k = j := by
        rcases Nat.lt_trichotomy k j with hlt | heq | hgt
        · have := h k
          simp only [readCells, if_true, Nat.ne_of_gt hlt, if_false] at this
          rw [readCells_below (lo := j + 1) (by omega) hd.2] at this
          exact absurd this hc.1.2
        · exact heq
        · have := h j
          simp only [readCells, if_true, Nat.ne_of_gt hgt, if_false] at this
          rw [readCells_below (lo := k + 1) (by omega) hc.2] at this
          exact absurd this.symm hd.1.2
      subst hkj
      have hvw : v = w := by simpa [readCells] using h k
      subst hvw
      have htail : cs = ds := by
        refine ih hc.2 hd.2 fun a => ?_
        by_cases ha : a = k
        · rw [ha, readCells_below (lo := k + 1) (by omega) hc.2, readCells_below (lo := k + 1) (by omega) hd.2]
        · have := h a
          simpa [readCells, Ne.symm ha] using this
      rw [htail]

/-- Two buffers in canonical form that read alike everywhere are equal data. -/
theorem Memory.ext_of_wf {m m' : Memory} (h : m.wf = true) (h' : m'.wf = true)
    (hr : ∀ a, m.read a = m'.read a) : m = m' := by
  have := cells_ext h h' hr
  cases m; cases m'; simpa using this

end Sys2Proof.Machine
end

