-- ==== Sys2Proof/Laws/State.lean ====
section
/-! SUPPORT. One lemma per field for each named update of the state, so that no proof unfolds a record
update. -/

namespace Sys2Proof.Machine

/-! ### `State.withErr` (R18) -/

@[simp] theorem withErr_rx (s : State) (c : BitVec 3) : (s.withErr c).rx = s.rx := rfl
@[simp] theorem withErr_tx (s : State) (c : BitVec 3) : (s.withErr c).tx = s.tx := rfl
@[simp] theorem withErr_pay (s : State) (c : BitVec 3) : (s.withErr c).pay = s.pay := rfl
@[simp] theorem withErr_err (s : State) (c : BitVec 3) : (s.withErr c).err = c := rfl
@[simp] theorem withErr_rxlen (s : State) (c : BitVec 3) : (s.withErr c).rxlen = s.rxlen := rfl
@[simp] theorem withErr_txlen (s : State) (c : BitVec 3) : (s.withErr c).txlen = s.txlen := rfl
@[simp] theorem withErr_paylen (s : State) (c : BitVec 3) : (s.withErr c).paylen = s.paylen := rfl
@[simp] theorem withErr_slOff (s : State) (c : BitVec 3) : (s.withErr c).slOff = s.slOff := rfl
@[simp] theorem withErr_slLen (s : State) (c : BitVec 3) : (s.withErr c).slLen = s.slLen := rfl
@[simp] theorem withErr_csSel (s : State) (c : BitVec 3) : (s.withErr c).csSel = s.csSel := rfl
@[simp] theorem withErr_csOff (s : State) (c : BitVec 3) : (s.withErr c).csOff = s.csOff := rfl
@[simp] theorem withErr_csLen (s : State) (c : BitVec 3) : (s.withErr c).csLen = s.csLen := rfl
@[simp] theorem withErr_csRes (s : State) (c : BitVec 3) : (s.withErr c).csRes = s.csRes := rfl
@[simp] theorem withErr_ip (s : State) (c : BitVec 3) : (s.withErr c).ip = s.ip := rfl
@[simp] theorem withErr_udp (s : State) (c : BitVec 3) : (s.withErr c).udp = s.udp := rfl
@[simp] theorem withErr_hostIn (s : State) (c : BitVec 3) : (s.withErr c).hostIn = s.hostIn := rfl
@[simp] theorem withErr_hostOut (s : State) (c : BitVec 3) : (s.withErr c).hostOut = s.hostOut := rfl
@[simp] theorem withErr_draws (s : State) (c : BitVec 3) : (s.withErr c).draws = s.draws := rfl

@[simp] theorem withErr_buffer (s : State) (c : BitVec 3) (buf : BufId) :
    (s.withErr c).buffer buf = s.buffer buf := by cases buf <;> rfl

@[simp] theorem withErr_validLength (s : State) (c : BitVec 3) (buf : BufId) :
    (s.withErr c).validLength buf = s.validLength buf := by cases buf <;> rfl

/-! ### `zeroControl` (R186) -/

@[simp] theorem zeroControl_rx (s : State) : (zeroControl s).rx = s.rx := rfl
@[simp] theorem zeroControl_tx (s : State) : (zeroControl s).tx = s.tx := rfl
@[simp] theorem zeroControl_pay (s : State) : (zeroControl s).pay = s.pay := rfl
@[simp] theorem zeroControl_err (s : State) : (zeroControl s).err = 0 := rfl
@[simp] theorem zeroControl_rxlen (s : State) : (zeroControl s).rxlen = 0 := rfl
@[simp] theorem zeroControl_txlen (s : State) : (zeroControl s).txlen = 0 := rfl
@[simp] theorem zeroControl_paylen (s : State) : (zeroControl s).paylen = 0 := rfl
@[simp] theorem zeroControl_slOff (s : State) : (zeroControl s).slOff = 0 := rfl
@[simp] theorem zeroControl_slLen (s : State) : (zeroControl s).slLen = 0 := rfl
@[simp] theorem zeroControl_csSel (s : State) : (zeroControl s).csSel = 0 := rfl
@[simp] theorem zeroControl_csOff (s : State) : (zeroControl s).csOff = 0 := rfl
@[simp] theorem zeroControl_csLen (s : State) : (zeroControl s).csLen = 0 := rfl
@[simp] theorem zeroControl_csRes (s : State) : (zeroControl s).csRes = s.csRes := rfl
@[simp] theorem zeroControl_ip (s : State) : (zeroControl s).ip = s.ip := rfl
@[simp] theorem zeroControl_udp (s : State) : (zeroControl s).udp = s.udp := rfl
@[simp] theorem zeroControl_hostIn (s : State) : (zeroControl s).hostIn = s.hostIn := rfl
@[simp] theorem zeroControl_hostOut (s : State) : (zeroControl s).hostOut = s.hostOut := rfl
@[simp] theorem zeroControl_draws (s : State) : (zeroControl s).draws = s.draws := rfl

/-! ### `hardwareReset` (R230) -/

@[simp] theorem hardwareReset_rx (s : State) : (hardwareReset s).rx = drawBuffer s.draws .rx := rfl
@[simp] theorem hardwareReset_tx (s : State) : (hardwareReset s).tx = drawBuffer s.draws .tx := rfl
@[simp] theorem hardwareReset_pay (s : State) : (hardwareReset s).pay = drawBuffer s.draws .pay := rfl
@[simp] theorem hardwareReset_err (s : State) : (hardwareReset s).err = 0 := rfl
@[simp] theorem hardwareReset_rxlen (s : State) : (hardwareReset s).rxlen = 0 := rfl
@[simp] theorem hardwareReset_txlen (s : State) : (hardwareReset s).txlen = 0 := rfl
@[simp] theorem hardwareReset_paylen (s : State) : (hardwareReset s).paylen = 0 := rfl
@[simp] theorem hardwareReset_slOff (s : State) : (hardwareReset s).slOff = 0 := rfl
@[simp] theorem hardwareReset_slLen (s : State) : (hardwareReset s).slLen = 0 := rfl
@[simp] theorem hardwareReset_csSel (s : State) : (hardwareReset s).csSel = 0 := rfl
@[simp] theorem hardwareReset_csOff (s : State) : (hardwareReset s).csOff = 0 := rfl
@[simp] theorem hardwareReset_csLen (s : State) : (hardwareReset s).csLen = 0 := rfl
@[simp] theorem hardwareReset_csRes (s : State) : (hardwareReset s).csRes = (Config.drawReg s.draws 0x0A).setWidth 16 := rfl
@[simp] theorem hardwareReset_ip (s : State) : (hardwareReset s).ip = drawIp s.draws := rfl
@[simp] theorem hardwareReset_udp (s : State) : (hardwareReset s).udp = drawUdp s.draws := rfl
@[simp] theorem hardwareReset_hostIn (s : State) : (hardwareReset s).hostIn = s.hostIn := rfl
@[simp] theorem hardwareReset_hostOut (s : State) : (hardwareReset s).hostOut = s.hostOut := rfl
@[simp] theorem hardwareReset_draws (s : State) : (hardwareReset s).draws = s.draws + 1 := rfl

/-! ### `State.withBuffer` (R183) -/

@[simp] theorem withBuffer_err (s : State) (buf : BufId) (m : Memory) :
    (s.withBuffer buf m).err = s.err := by cases buf <;> rfl
@[simp] theorem withBuffer_rxlen (s : State) (buf : BufId) (m : Memory) :
    (s.withBuffer buf m).rxlen = s.rxlen := by cases buf <;> rfl
@[simp] theorem withBuffer_txlen (s : State) (buf : BufId) (m : Memory) :
    (s.withBuffer buf m).txlen = s.txlen := by cases buf <;> rfl
@[simp] theorem withBuffer_paylen (s : State) (buf : BufId) (m : Memory) :
    (s.withBuffer buf m).paylen = s.paylen := by cases buf <;> rfl
@[simp] theorem withBuffer_slOff (s : State) (buf : BufId) (m : Memory) :
    (s.withBuffer buf m).slOff = s.slOff := by cases buf <;> rfl
@[simp] theorem withBuffer_slLen (s : State) (buf : BufId) (m : Memory) :
    (s.withBuffer buf m).slLen = s.slLen := by cases buf <;> rfl
@[simp] theorem withBuffer_csSel (s : State) (buf : BufId) (m : Memory) :
    (s.withBuffer buf m).csSel = s.csSel := by cases buf <;> rfl
@[simp] theorem withBuffer_csOff (s : State) (buf : BufId) (m : Memory) :
    (s.withBuffer buf m).csOff = s.csOff := by cases buf <;> rfl
@[simp] theorem withBuffer_csLen (s : State) (buf : BufId) (m : Memory) :
    (s.withBuffer buf m).csLen = s.csLen := by cases buf <;> rfl
@[simp] theorem withBuffer_csRes (s : State) (buf : BufId) (m : Memory) :
    (s.withBuffer buf m).csRes = s.csRes := by cases buf <;> rfl
@[simp] theorem withBuffer_ip (s : State) (buf : BufId) (m : Memory) :
    (s.withBuffer buf m).ip = s.ip := by cases buf <;> rfl
@[simp] theorem withBuffer_udp (s : State) (buf : BufId) (m : Memory) :
    (s.withBuffer buf m).udp = s.udp := by cases buf <;> rfl
@[simp] theorem withBuffer_hostIn (s : State) (buf : BufId) (m : Memory) :
    (s.withBuffer buf m).hostIn = s.hostIn := by cases buf <;> rfl
@[simp] theorem withBuffer_hostOut (s : State) (buf : BufId) (m : Memory) :
    (s.withBuffer buf m).hostOut = s.hostOut := by cases buf <;> rfl
@[simp] theorem withBuffer_draws (s : State) (buf : BufId) (m : Memory) :
    (s.withBuffer buf m).draws = s.draws := by cases buf <;> rfl

@[simp] theorem buffer_withBuffer_same (s : State) (buf : BufId) (m : Memory) :
    (s.withBuffer buf m).buffer buf = m := by cases buf <;> rfl

theorem buffer_withBuffer_other (s : State) {buf buf' : BufId} (h : buf' ≠ buf) (m : Memory) :
    (s.withBuffer buf m).buffer buf' = s.buffer buf' := by
  cases buf <;> cases buf' <;> first | rfl | exact absurd rfl h

/-! ### The accessors by name -/

@[simp] theorem buffer_rx (s : State) : s.buffer .rx = s.rx := rfl
@[simp] theorem buffer_tx (s : State) : s.buffer .tx = s.tx := rfl
@[simp] theorem buffer_pay (s : State) : s.buffer .pay = s.pay := rfl
@[simp] theorem validLength_rx (s : State) : s.validLength .rx = s.rxlen := rfl
@[simp] theorem validLength_tx (s : State) : s.validLength .tx = s.txlen := rfl
@[simp] theorem validLength_pay (s : State) : s.validLength .pay = s.paylen := rfl

end Sys2Proof.Machine
end

