-- ==== Sys2Proof/Laws/Ops.lean ====
section
/-! SUPPORT. What each shared operation can do, said once: a standalone command, a run of stages, and each
command body (its error conditions, and the state it gives). Provers cite these instead of unfolding. -/

namespace Sys2Proof.Machine

/-! ### The end of a command -/

theorem standalone_ok {body : Body} {s t : State} (h : body s = .ok t) :
    standalone body s = .next (t.withErr okCode) := by simp [standalone, h, succeed]

theorem standalone_error {body : Body} {s : State} {e : CoreError} (h : body s = .error e) :
    standalone body s = .next (s.withErr e.code) := by simp [standalone, h, raiseError]

/-- A standalone command always ends in a next state, in one of two ways (R206). -/
theorem standalone_cases (body : Body) (s : State) :
    (∃ t, body s = .ok t ∧ standalone body s = .next (t.withErr okCode)) ∨
    (∃ e, body s = .error e ∧ standalone body s = .next (s.withErr e.code)) := by
  cases h : body s with
  | ok t => exact .inl ⟨t, rfl, standalone_ok h⟩
  | error e => exact .inr ⟨e, rfl, standalone_error h⟩

theorem code_ne_ok (e : CoreError) : e.code ≠ okCode := by cases e <;> decide

theorem code_le_four (e : CoreError) : e.code.toNat ≤ 4 := by cases e <;> decide

@[simp] theorem withErr_withErr (s : State) (c d : BitVec 3) : (s.withErr c).withErr d = s.withErr d := rfl

/-! ### Stages -/

theorem runStages_cons_ok {body : Body} {rest : List Body} {s t : State} (h : body s = .ok t) :
    runStages (body :: rest) s = runStages rest t := by simp [runStages, h]

theorem runStages_cons_error {body : Body} {rest : List Body} {s : State} {e : CoreError}
    (h : body s = .error e) : runStages (body :: rest) s = (s, some e) := by simp [runStages, h]

/-- A property that every stage keeps when it succeeds holds of the state a run of stages leaves. -/
theorem runStages_keeps {P : State → Prop} {stages : List Body}
    (hstep : ∀ body ∈ stages, ∀ s t, P s → body s = .ok t → P t) {s : State} (hs : P s) :
    P (runStages stages s).1 := by
  induction stages generalizing s with
  | nil => exact hs
  | cons body rest ih =>
    cases h : body s with
    | ok t =>
      rw [runStages_cons_ok h]
      exact ih (fun b hb => hstep b (List.mem_cons_of_mem _ hb)) (hstep body List.mem_cons_self s t hs h)
    | error e => rw [runStages_cons_error h]; exact hs

/-- ECHO always ends in a next state, in one of two ways (R170, R171). -/
theorem execEcho_cases (s : State) :
    (∃ t, runStages echoStages s = (t, none) ∧ execEcho s = .next (t.withErr okCode)) ∨
    (∃ t e, runStages echoStages s = (t, some e) ∧
      execEcho s = .next ({ t with txlen := 0 }.withErr e.code)) := by
  rcases h : runStages echoStages s with ⟨t, _ | e⟩
  · exact .inl ⟨t, rfl, by simp [execEcho, h, succeed]⟩
  · exact .inr ⟨t, e, rfl, by simp [execEcho, h, raiseError]⟩

/-! ### What a command body that succeeds has done -/

theorem csumBody_ok {s t : State} (h : csumBody s = .ok t) :
    ∃ buf, selectedBuffer s.csSel = some buf ∧ s.csOff.toNat + s.csLen.toNat ≤ (s.validLength buf).toNat ∧
      t = { s with csRes := checksumBytes ((s.buffer buf).readBytes s.csOff.toNat s.csLen.toNat) } := by
  unfold csumBody at h
  split at h
  · cases h
  · rename_i buf hsel
    split at h
    · cases h
    · cases h; exact ⟨buf, hsel, by omega, rfl⟩

theorem ip4decBody_ok {s t : State} (h : ip4decBody s = .ok t) :
    20 ≤ s.rxlen.toNat ∧ 5 ≤ ((s.rx.read 0).extractLsb' 0 4).toNat ∧
      headerBytes ((s.rx.read 0).extractLsb' 0 4) ≤ s.rxlen.toNat ∧
      t = { s with ip := ipFields (s.rx.readBytes 0 20) } := by
  simp only [ip4decBody] at h
  split at h
  · cases h
  · split at h
    · cases h
    · split at h
      · cases h
      · cases h; exact ⟨by omega, by omega, by omega, rfl⟩

theorem ip4encBody_ok {s t : State} (h : ip4encBody s = .ok t) :
    headerBytes s.ip.ihl ≤ s.ip.tlen.toNat ∧ 20 ≤ s.ip.tlen.toNat ∧
      t = { s with tx := s.tx.writeBytes 0 (ipImage s.ip), txlen := s.ip.tlen } := by
  unfold ip4encBody at h
  split at h
  · cases h
  · split at h
    · cases h
    · cases h; exact ⟨by omega, by omega, rfl⟩

theorem udpdecBody_ok {s t : State} (h : udpdecBody s = .ok t) :
    s.slOff.toNat + s.slLen.toNat ≤ s.rxlen.toNat ∧ 8 ≤ s.slLen.toNat ∧
      t = { s with
        udp := udpFields (s.rx.readBytes s.slOff.toNat 8)
        pay := s.pay.copyFrom 0 s.rx (s.slOff.toNat + 8) (s.slLen.toNat - 8)
        paylen := BitVec.ofNat 16 (s.slLen.toNat - 8) } := by
  simp only [udpdecBody] at h
  split at h
  · cases h
  · split at h
    · cases h
    · cases h; exact ⟨by omega, by omega, rfl⟩

theorem udpencBody_ok {s t : State} (h : udpencBody s = .ok t) :
    s.udp.len.toNat = 8 + s.paylen.toNat ∧ s.slOff.toNat + s.udp.len.toNat ≤ Config.bufMax ∧
      t = { s with
        tx := (s.tx.writeBytes s.slOff.toNat (udpImage s.udp)).copyFrom (s.slOff.toNat + 8) s.pay 0
          s.paylen.toNat
        txlen := BitVec.ofNat 16 (s.slOff.toNat + s.udp.len.toNat) } := by
  simp only [udpencBody] at h
  split at h
  · cases h
  · split at h
    · cases h
    · cases h; exact ⟨by omega, by omega, rfl⟩

theorem sliceBody_ok {s t : State} (h : sliceBody s = .ok t) :
    headerBytes s.ip.ihl ≤ s.ip.tlen.toNat ∧ s.ip.tlen.toNat ≤ s.rxlen.toNat ∧
      t = { s with
        slOff := BitVec.ofNat 16 (headerBytes s.ip.ihl)
        slLen := BitVec.ofNat 16 (s.ip.tlen.toNat - headerBytes s.ip.ihl) } := by
  simp only [sliceBody] at h
  split at h
  · cases h
  · split at h
    · cases h
    · cases h; exact ⟨by omega, by omega, rfl⟩

theorem optcpyBody_ok {s t : State} (h : optcpyBody s = .ok t) :
    s.slOff.toNat ≤ s.rxlen.toNat ∧
      t = { s with tx := s.tx.copyFrom 20 s.rx 20 (s.slOff.toNat - 20) } := by
  unfold optcpyBody at h
  split at h
  · cases h
  · cases h; exact ⟨by omega, rfl⟩

theorem xformBody_ok {s t : State} (h : xformBody s = .ok t) : t = xformWith Config.udpZeroSubst s := by
  cases h; rfl

/-! ### When a command body raises, and what it gives otherwise -/

theorem csumBody_reserved {s : State} (h : selectedBuffer s.csSel = none) :
    csumBody s = .error .illegalCommand := by simp [csumBody, h]

theorem csumBody_truncated {s : State} {buf : BufId} (hb : selectedBuffer s.csSel = some buf)
    (h : (s.validLength buf).toNat < s.csOff.toNat + s.csLen.toNat) :
    csumBody s = .error .truncatedBuffer := by simp [csumBody, hb, h]

theorem csumBody_eq {s : State} {buf : BufId} (hb : selectedBuffer s.csSel = some buf)
    (h : s.csOff.toNat + s.csLen.toNat ≤ (s.validLength buf).toNat) :
    csumBody s = .ok { s with
      csRes := checksumBytes ((s.buffer buf).readBytes s.csOff.toNat s.csLen.toNat) } := by
  simp [csumBody, hb, Nat.not_lt.2 h]

theorem ip4decBody_truncated {s : State} (h : s.rxlen.toNat < 20) :
    ip4decBody s = .error .truncatedBuffer := by simp [ip4decBody, h]

theorem ip4decBody_invalid {s : State} (h : 20 ≤ s.rxlen.toNat)
    (h' : ((s.rx.read 0).extractLsb' 0 4).toNat < 5 ∨
      s.rxlen.toNat < headerBytes ((s.rx.read 0).extractLsb' 0 4)) :
    ip4decBody s = .error .invalidHeaderLength := by
  simp only [ip4decBody, if_neg (Nat.not_lt.2 h)]
  split
  · rfl
  · rw [if_pos (h'.resolve_left ‹_›)]

theorem ip4decBody_eq {s : State} (h : 20 ≤ s.rxlen.toNat) (h5 : 5 ≤ ((s.rx.read 0).extractLsb' 0 4).toNat)
    (hl : headerBytes ((s.rx.read 0).extractLsb' 0 4) ≤ s.rxlen.toNat) :
    ip4decBody s = .ok { s with ip := ipFields (s.rx.readBytes 0 20) } := by
  simp only [ip4decBody, if_neg (Nat.not_lt.2 h), if_neg (Nat.not_lt.2 h5), if_neg (Nat.not_lt.2 hl)]

theorem ip4encBody_invalid {s : State} (h : s.ip.tlen.toNat < headerBytes s.ip.ihl ∨ s.ip.tlen.toNat < 20) :
    ip4encBody s = .error .invalidLength := by
  unfold ip4encBody
  split
  · rfl
  · rw [if_pos (h.resolve_left ‹_›)]

theorem ip4encBody_eq {s : State} (h : headerBytes s.ip.ihl ≤ s.ip.tlen.toNat) (h' : 20 ≤ s.ip.tlen.toNat) :
    ip4encBody s = .ok { s with tx := s.tx.writeBytes 0 (ipImage s.ip), txlen := s.ip.tlen } := by
  simp only [ip4encBody, if_neg (Nat.not_lt.2 h), if_neg (Nat.not_lt.2 h')]

theorem udpdecBody_truncated {s : State}
    (h : s.rxlen.toNat < s.slOff.toNat + s.slLen.toNat ∨ s.slLen.toNat < 8) :
    udpdecBody s = .error .truncatedBuffer := by
  simp only [udpdecBody]
  split
  · rfl
  · rw [if_pos (h.resolve_left ‹_›)]

theorem udpdecBody_eq {s : State} (h : s.slOff.toNat + s.slLen.toNat ≤ s.rxlen.toNat) (h' : 8 ≤ s.slLen.toNat) :
    udpdecBody s = .ok { s with
      udp := udpFields (s.rx.readBytes s.slOff.toNat 8)
      pay := s.pay.copyFrom 0 s.rx (s.slOff.toNat + 8) (s.slLen.toNat - 8)
      paylen := BitVec.ofNat 16 (s.slLen.toNat - 8) } := by
  simp only [udpdecBody, if_neg (Nat.not_lt.2 h), if_neg (Nat.not_lt.2 h')]

theorem udpencBody_invalid {s : State}
    (h : s.udp.len.toNat ≠ 8 + s.paylen.toNat ∨ Config.bufMax < s.slOff.toNat + s.udp.len.toNat) :
    udpencBody s = .error .invalidLength := by
  simp only [udpencBody]
  split
  · rfl
  · rw [if_pos (h.resolve_left ‹_›)]

theorem udpencBody_eq {s : State} (h : s.udp.len.toNat = 8 + s.paylen.toNat)
    (h' : s.slOff.toNat + s.udp.len.toNat ≤ Config.bufMax) :
    udpencBody s = .ok { s with
      tx := (s.tx.writeBytes s.slOff.toNat (udpImage s.udp)).copyFrom (s.slOff.toNat + 8) s.pay 0
        s.paylen.toNat
      txlen := BitVec.ofNat 16 (s.slOff.toNat + s.udp.len.toNat) } := by
  simp only [udpencBody, if_neg (Nat.not_lt.2 h'), if_neg (not_not.2 h)]

theorem sliceBody_invalid {s : State}
    (h : s.ip.tlen.toNat < headerBytes s.ip.ihl ∨ s.rxlen.toNat < s.ip.tlen.toNat) :
    sliceBody s = .error .invalidHeaderLength := by
  simp only [sliceBody]
  split
  · rfl
  · rw [if_pos (h.resolve_left ‹_›)]

theorem sliceBody_eq {s : State} (h : headerBytes s.ip.ihl ≤ s.ip.tlen.toNat)
    (h' : s.ip.tlen.toNat ≤ s.rxlen.toNat) :
    sliceBody s = .ok { s with
      slOff := BitVec.ofNat 16 (headerBytes s.ip.ihl)
      slLen := BitVec.ofNat 16 (s.ip.tlen.toNat - headerBytes s.ip.ihl) } := by
  simp only [sliceBody, if_neg (Nat.not_lt.2 h), if_neg (Nat.not_lt.2 h')]

theorem optcpyBody_truncated {s : State} (h : s.rxlen.toNat < s.slOff.toNat) :
    optcpyBody s = .error .truncatedBuffer := by simp [optcpyBody, h]

theorem optcpyBody_eq {s : State} (h : s.slOff.toNat ≤ s.rxlen.toNat) :
    optcpyBody s = .ok { s with tx := s.tx.copyFrom 20 s.rx 20 (s.slOff.toNat - 20) } := by
  simp [optcpyBody, Nat.not_lt.2 h]

theorem xformBody_eq (s : State) : xformBody s = .ok (xformWith Config.udpZeroSubst s) := rfl

/-! ### No command body reads ERR (R18) -/

/-- The body neither reads ERR nor writes it. -/
abbrev Body.IgnoresErr (body : Body) : Prop :=
  ∀ (s : State) (c : BitVec 3), body (s.withErr c) = (body s).map (·.withErr c)

theorem csumBody_ignoresErr : Body.IgnoresErr csumBody := by
  intro s c
  cases hb : selectedBuffer s.csSel with
  | none => rw [csumBody_reserved hb, csumBody_reserved (s := s.withErr c) hb]; rfl
  | some buf =>
    by_cases h : (s.validLength buf).toNat < s.csOff.toNat + s.csLen.toNat
    · rw [csumBody_truncated hb h, csumBody_truncated (s := s.withErr c) hb (by simpa using h)]; rfl
    · rw [csumBody_eq hb (Nat.not_lt.1 h), csumBody_eq (s := s.withErr c) hb (by simpa using h)]
      simp [Except.map, State.withErr]
      cases buf <;> rfl

theorem ip4decBody_ignoresErr : Body.IgnoresErr ip4decBody := by
  intro s c
  rcases Nat.lt_or_ge s.rxlen.toNat 20 with h | h
  · rw [ip4decBody_truncated h, ip4decBody_truncated (s := s.withErr c) h]; rfl
  · by_cases h' : ((s.rx.read 0).extractLsb' 0 4).toNat < 5 ∨
        s.rxlen.toNat < headerBytes ((s.rx.read 0).extractLsb' 0 4)
    · rw [ip4decBody_invalid h h', ip4decBody_invalid (s := s.withErr c) h h']; rfl
    · have h5 := Nat.not_lt.1 (not_or.1 h').1
      have hl := Nat.not_lt.1 (not_or.1 h').2
      rw [ip4decBody_eq h h5 hl, ip4decBody_eq (s := s.withErr c) h h5 hl]; rfl

theorem ip4encBody_ignoresErr : Body.IgnoresErr ip4encBody := by
  intro s c
  by_cases h : s.ip.tlen.toNat < headerBytes s.ip.ihl ∨ s.ip.tlen.toNat < 20
  · rw [ip4encBody_invalid h, ip4encBody_invalid (s := s.withErr c) h]; rfl
  · have h1 := Nat.not_lt.1 (not_or.1 h).1
    have h2 := Nat.not_lt.1 (not_or.1 h).2
    rw [ip4encBody_eq h1 h2, ip4encBody_eq (s := s.withErr c) h1 h2]; rfl

theorem udpdecBody_ignoresErr : Body.IgnoresErr udpdecBody := by
  intro s c
  by_cases h : s.rxlen.toNat < s.slOff.toNat + s.slLen.toNat ∨ s.slLen.toNat < 8
  · rw [udpdecBody_truncated h, udpdecBody_truncated (s := s.withErr c) h]; rfl
  · have h1 := Nat.not_lt.1 (not_or.1 h).1
    have h2 := Nat.not_lt.1 (not_or.1 h).2
    rw [udpdecBody_eq h1 h2, udpdecBody_eq (s := s.withErr c) h1 h2]; rfl

theorem udpencBody_ignoresErr : Body.IgnoresErr udpencBody := by
  intro s c
  by_cases h : s.udp.len.toNat ≠ 8 + s.paylen.toNat ∨ Config.bufMax < s.slOff.toNat + s.udp.len.toNat
  · rw [udpencBody_invalid h, udpencBody_invalid (s := s.withErr c) h]; rfl
  · have h1 := not_not.1 (not_or.1 h).1
    have h2 := Nat.not_lt.1 (not_or.1 h).2
    rw [udpencBody_eq h1 h2, udpencBody_eq (s := s.withErr c) h1 h2]; rfl

theorem sliceBody_ignoresErr : Body.IgnoresErr sliceBody := by
  intro s c
  by_cases h : s.ip.tlen.toNat < headerBytes s.ip.ihl ∨ s.rxlen.toNat < s.ip.tlen.toNat
  · rw [sliceBody_invalid h, sliceBody_invalid (s := s.withErr c) h]; rfl
  · have h1 := Nat.not_lt.1 (not_or.1 h).1
    have h2 := Nat.not_lt.1 (not_or.1 h).2
    rw [sliceBody_eq h1 h2, sliceBody_eq (s := s.withErr c) h1 h2]; rfl

theorem optcpyBody_ignoresErr : Body.IgnoresErr optcpyBody := by
  intro s c
  rcases Nat.lt_or_ge s.rxlen.toNat s.slOff.toNat with h | h
  · rw [optcpyBody_truncated h, optcpyBody_truncated (s := s.withErr c) h]; rfl
  · rw [optcpyBody_eq h, optcpyBody_eq (s := s.withErr c) h]; rfl

theorem xformBody_ignoresErr : Body.IgnoresErr xformBody := fun _ _ => rfl

theorem echoStages_ignoreErr : ∀ body ∈ echoStages, Body.IgnoresErr body := by
  intro body hb
  simp only [echoStages, List.mem_cons, List.not_mem_nil, or_false] at hb
  rcases hb with rfl | rfl | rfl | rfl | rfl | rfl | rfl
  · exact ip4decBody_ignoresErr
  · exact sliceBody_ignoresErr
  · exact udpdecBody_ignoresErr
  · exact xformBody_ignoresErr
  · exact ip4encBody_ignoresErr
  · exact optcpyBody_ignoresErr
  · exact udpencBody_ignoresErr

/-! ### Lengths of the layouts -/

@[simp] theorem length_ipImage (f : IpFields) : (ipImage f).length = 20 := rfl

@[simp] theorem length_udpImage (u : UdpFields) : (udpImage u).length = 8 := rfl

/-! ### The canonical form through every operation -/

/-- All three buffers are in canonical form. -/
abbrev State.buffersWf (s : State) : Prop := s.rx.wf = true ∧ s.tx.wf = true ∧ s.pay.wf = true

theorem buffersWf_reset : State.reset.buffersWf := by decide

theorem csumBody_wf {s t : State} (hw : s.buffersWf) (h : csumBody s = .ok t) : t.buffersWf := by
  obtain ⟨_, _, _, rfl⟩ := csumBody_ok h; exact hw

theorem ip4decBody_wf {s t : State} (hw : s.buffersWf) (h : ip4decBody s = .ok t) : t.buffersWf := by
  obtain ⟨_, _, _, rfl⟩ := ip4decBody_ok h; exact hw

theorem ip4encBody_wf {s t : State} (hw : s.buffersWf) (h : ip4encBody s = .ok t) : t.buffersWf := by
  obtain ⟨_, _, rfl⟩ := ip4encBody_ok h
  exact ⟨hw.1, Memory.wf_writeBytes hw.2.1 (by simp [Config.bufMax]), hw.2.2⟩

theorem udpdecBody_wf {s t : State} (hw : s.buffersWf) (h : udpdecBody s = .ok t) : t.buffersWf := by
  obtain ⟨h1, _, rfl⟩ := udpdecBody_ok h
  have := s.rxlen.isLt
  exact ⟨hw.1, hw.2.1, Memory.wf_copyFrom hw.2.2 _ _ (by simp only [Config.bufMax]; omega)⟩

theorem udpencBody_wf {s t : State} (hw : s.buffersWf) (h : udpencBody s = .ok t) : t.buffersWf := by
  obtain ⟨h1, h2, rfl⟩ := udpencBody_ok h
  have hhead : s.slOff.toNat + (udpImage s.udp).length ≤ Config.bufMax := by
    simp only [length_udpImage]; omega
  exact ⟨hw.1, Memory.wf_copyFrom (Memory.wf_writeBytes hw.2.1 hhead) _ _ (by omega), hw.2.2⟩

theorem sliceBody_wf {s t : State} (hw : s.buffersWf) (h : sliceBody s = .ok t) : t.buffersWf := by
  obtain ⟨_, _, rfl⟩ := sliceBody_ok h; exact hw

theorem optcpyBody_wf {s t : State} (hw : s.buffersWf) (h : optcpyBody s = .ok t) : t.buffersWf := by
  obtain ⟨h1, rfl⟩ := optcpyBody_ok h
  have := s.rxlen.isLt
  exact ⟨hw.1, Memory.wf_copyFrom hw.2.1 _ _ (by simp only [Config.bufMax]; omega), hw.2.2⟩

theorem xformBody_wf {s t : State} (hw : s.buffersWf) (h : xformBody s = .ok t) : t.buffersWf := by
  rw [xformBody_ok h]; exact hw

theorem runStages_echoStages_wf {s : State} (hw : s.buffersWf) :
    (runStages echoStages s).1.buffersWf := by
  refine runStages_keeps (fun body hb s t hs h => ?_) hw
  simp only [echoStages, List.mem_cons, List.not_mem_nil, or_false] at hb
  rcases hb with rfl | rfl | rfl | rfl | rfl | rfl | rfl
  · exact ip4decBody_wf hs h
  · exact sliceBody_wf hs h
  · exact udpdecBody_wf hs h
  · exact xformBody_wf hs h
  · exact ip4encBody_wf hs h
  · exact optcpyBody_wf hs h
  · exact udpencBody_wf hs h

/-- A byte written by the host keeps the canonical form of the buffers. -/
theorem buffersWf_hostWrite {s : State} (hw : s.buffersWf) (buf : BufId) {off : Nat}
    (h : off < Config.bufMax) (b : Byte) :
    (s.withBuffer buf ((s.buffer buf).write off b)).buffersWf := by
  cases buf with
  | rx => exact ⟨Memory.wf_write hw.1 h b, hw.2.1, hw.2.2⟩
  | tx => exact ⟨hw.1, Memory.wf_write hw.2.1 h b, hw.2.2⟩
  | pay => exact ⟨hw.1, hw.2.1, Memory.wf_write hw.2.2 h b⟩

end Sys2Proof.Machine
end

