-- ==== Sys2Proof/Laws/Host.lean ====
section
/-! SUPPORT. The host's lines (30_encoding.md R66, R67): a command line is its command, `RD ERR` returns ERR, one
equation per line of a program, and no standalone command reads what the host's reads have returned. -/

namespace Sys2Proof.Machine

/-! ### Single lines -/

theorem decode_encode (i : Instr) : decode (encode i) = .ok i := by cases i <;> decide

/-- A command line runs its command (R66, R184). -/
@[simp] theorem hostEvent_commandLine (i : Instr) (s : State) : hostEvent (commandLine i) s = exec i s := by
  simp [hostEvent, commandLine, hostWriteReg, Reg.ofNumber, issueCommand, decode_encode]

/-- The state with one more value returned to the host. -/
def State.withReply (s : State) (r : HostReply) : State := { s with hostOut := s.hostOut ++ [r] }

/-- `RD ERR` returns ERR and changes no state of the CORE (R180). -/
@[simp] theorem hostEvent_readErr (s : State) :
    hostEvent (.hrd 0x01) s = .next (s.withReply (.reg (s.err.setWidth 32))) := rfl

@[simp] theorem lastReplyIs_withReply (v w : BusWord) (s : State) :
    lastReplyIs v (s.withReply (.reg w)) = decide (w = v) := by
  simp [lastReplyIs, State.withReply]

@[simp] theorem withReply_err (s : State) (r : HostReply) : (s.withReply r).err = s.err := rfl

@[simp] theorem onNext_next (s : State) (k : State → Answer) : onNext (.next s) k = k s := rfl

/-! ### Programs -/

@[simp] theorem runLines_transact (e : HostEvent) (rest : List HostLine) (s : State) :
    runLines (.transact e :: rest) s = onNext (hostEvent e s) (runLines rest) := rfl

/-- The host's test, in terms of ERR itself. -/
@[simp] theorem runLines_checkErr (rest : List HostLine) (s : State) :
    runLines (.checkErr :: rest) s =
      if s.err = 0 then runLines rest (s.withReply (.reg 0)) else .next (s.withReply (.reg (s.err.setWidth 32))) := by
  have hz : s.err.setWidth 32 = 0#32 ↔ s.err = 0 := by
    constructor
    · intro h
      apply BitVec.eq_of_toNat_eq
      have h32 := congrArg BitVec.toNat h
      have := s.err.isLt
      simp at h32 ⊢; omega
    · rintro h; rw [h]; rfl
  by_cases h : s.err = 0
  · simp [runLines, h]
  · have hn : ¬ s.err.setWidth 32 = 0#32 := fun e => h (hz.1 e)
    simp only [runLines, hostEvent_readErr, onNext_next, lastReplyIs_withReply, if_neg h]
    simp [hn]

theorem runCommands_cons {i : Instr} {s t : State} (rest : List Instr) (h : exec i s = .next t) :
    runCommands (i :: rest) s = if t.err = okCode then runCommands rest t else .next t := by
  simp [runCommands, h]

/-! ### No command reads the replies -/

/-- The body neither reads the list of replies nor writes it. -/
abbrev Body.IgnoresReplies (body : Body) : Prop :=
  ∀ (s : State) (r : HostReply), body (s.withReply r) = (body s).map (·.withReply r)

theorem csumBody_ignoresReplies : Body.IgnoresReplies csumBody := by
  intro s r
  cases hb : selectedBuffer s.csSel with
  | none => rw [csumBody_reserved hb, csumBody_reserved (s := s.withReply r) hb]; rfl
  | some buf =>
    have hv : (s.withReply r).validLength buf = s.validLength buf := by cases buf <;> rfl
    rcases Nat.lt_or_ge (s.validLength buf).toNat (s.csOff.toNat + s.csLen.toNat) with h | h
    · rw [csumBody_truncated hb h, csumBody_truncated (s := s.withReply r) hb (by rw [hv]; exact h)]; rfl
    · rw [csumBody_eq hb h, csumBody_eq (s := s.withReply r) hb (by rw [hv]; exact h)]
      cases buf <;> rfl

theorem ip4decBody_ignoresReplies : Body.IgnoresReplies ip4decBody := by
  intro s r
  rcases Nat.lt_or_ge s.rxlen.toNat 20 with h | h
  · rw [ip4decBody_truncated h, ip4decBody_truncated (s := s.withReply r) h]; rfl
  · by_cases h' : ((s.rx.read 0).extractLsb' 0 4).toNat < 5 ∨
        s.rxlen.toNat < headerBytes ((s.rx.read 0).extractLsb' 0 4)
    · rw [ip4decBody_invalid h h', ip4decBody_invalid (s := s.withReply r) h h']; rfl
    · have h5 := Nat.not_lt.1 (not_or.1 h').1
      have hl := Nat.not_lt.1 (not_or.1 h').2
      rw [ip4decBody_eq h h5 hl, ip4decBody_eq (s := s.withReply r) h h5 hl]; rfl

theorem ip4encBody_ignoresReplies : Body.IgnoresReplies ip4encBody := by
  intro s r
  by_cases h : s.ip.tlen.toNat < headerBytes s.ip.ihl ∨ s.ip.tlen.toNat < 20
  · rw [ip4encBody_invalid h, ip4encBody_invalid (s := s.withReply r) h]; rfl
  · have h1 := Nat.not_lt.1 (not_or.1 h).1
    have h2 := Nat.not_lt.1 (not_or.1 h).2
    rw [ip4encBody_eq h1 h2, ip4encBody_eq (s := s.withReply r) h1 h2]; rfl

theorem udpdecBody_ignoresReplies : Body.IgnoresReplies udpdecBody := by
  intro s r
  by_cases h : s.rxlen.toNat < s.slOff.toNat + s.slLen.toNat ∨ s.slLen.toNat < 8
  · rw [udpdecBody_truncated h, udpdecBody_truncated (s := s.withReply r) h]; rfl
  · have h1 := Nat.not_lt.1 (not_or.1 h).1
    have h2 := Nat.not_lt.1 (not_or.1 h).2
    rw [udpdecBody_eq h1 h2, udpdecBody_eq (s := s.withReply r) h1 h2]; rfl

theorem udpencBody_ignoresReplies : Body.IgnoresReplies udpencBody := by
  intro s r
  by_cases h : s.udp.len.toNat ≠ 8 + s.paylen.toNat ∨ Config.bufMax < s.slOff.toNat + s.udp.len.toNat
  · rw [udpencBody_invalid h, udpencBody_invalid (s := s.withReply r) h]; rfl
  · have h1 := not_not.1 (not_or.1 h).1
    have h2 := Nat.not_lt.1 (not_or.1 h).2
    rw [udpencBody_eq h1 h2, udpencBody_eq (s := s.withReply r) h1 h2]; rfl

theorem sliceBody_ignoresReplies : Body.IgnoresReplies sliceBody := by
  intro s r
  by_cases h : s.ip.tlen.toNat < headerBytes s.ip.ihl ∨ s.rxlen.toNat < s.ip.tlen.toNat
  · rw [sliceBody_invalid h, sliceBody_invalid (s := s.withReply r) h]; rfl
  · have h1 := Nat.not_lt.1 (not_or.1 h).1
    have h2 := Nat.not_lt.1 (not_or.1 h).2
    rw [sliceBody_eq h1 h2, sliceBody_eq (s := s.withReply r) h1 h2]; rfl

theorem optcpyBody_ignoresReplies : Body.IgnoresReplies optcpyBody := by
  intro s r
  rcases Nat.lt_or_ge s.rxlen.toNat s.slOff.toNat with h | h
  · rw [optcpyBody_truncated h, optcpyBody_truncated (s := s.withReply r) h]; rfl
  · rw [optcpyBody_eq h, optcpyBody_eq (s := s.withReply r) h]; rfl

theorem xformBody_ignoresReplies : Body.IgnoresReplies xformBody := fun _ _ => rfl

/-- A standalone command on a state with one more reply ends in its next state with one more reply. -/
theorem standalone_withReply {body : Body} (hb : body.IgnoresReplies) {s t : State} (r : HostReply)
    (h : standalone body s = .next t) : standalone body (s.withReply r) = .next (t.withReply r) := by
  rcases standalone_cases body s with ⟨u, hu, hs⟩ | ⟨e, hu, hs⟩
  · rw [hs] at h; cases h
    have hr : body (s.withReply r) = .ok (u.withReply r) := by rw [hb, hu]; rfl
    exact standalone_ok hr
  · rw [hs] at h; cases h
    have hr : body (s.withReply r) = .error e := by rw [hb, hu]; rfl
    exact standalone_error hr

end Sys2Proof.Machine
end

