-- ==== Sys2Proof/Laws/Layout.lean ====
section
/-! SUPPORT. The small lemmas of the layout functions: words, bytes and addresses as numbers, and a field read
out of a range of a buffer (R41, R70). -/

namespace Sys2Proof.Machine

theorem toNat_wordOf (hi lo : Byte) : (wordOf hi lo).toNat = hi.toNat * 256 + lo.toNat := by
  have := lo.isLt
  simp only [wordOf, BitVec.toNat_append, Nat.shiftLeft_eq]
  rw [← Nat.shiftLeft_eq, ← Nat.shiftLeft_add_eq_or_of_lt (by omega), Nat.shiftLeft_eq]

theorem toNat_hiByte (w : Word) : (hiByte w).toNat = w.toNat / 256 := by
  have := w.isLt
  simp only [hiByte, BitVec.extractLsb'_toNat, Nat.shiftRight_eq_div_pow]
  omega

theorem toNat_loByte (w : Word) : (loByte w).toNat = w.toNat % 256 := by
  simp [loByte, BitVec.extractLsb'_toNat]

theorem toNat_hiWord (a : BitVec 32) : (hiWord a).toNat = a.toNat / 65536 := by
  have := a.isLt
  simp only [hiWord, BitVec.extractLsb'_toNat, Nat.shiftRight_eq_div_pow]
  omega

theorem toNat_loWord (a : BitVec 32) : (loWord a).toNat = a.toNat % 65536 := by
  simp [loWord, BitVec.extractLsb'_toNat]

@[simp] theorem wordOf_hiByte_loByte (w : Word) : wordOf (hiByte w) (loByte w) = w := by
  apply BitVec.eq_of_toNat_eq
  rw [toNat_wordOf, toNat_hiByte, toNat_loByte]; omega

@[simp] theorem hiByte_wordOf (hi lo : Byte) : hiByte (wordOf hi lo) = hi := by
  have := lo.isLt
  apply BitVec.eq_of_toNat_eq
  rw [toNat_hiByte, toNat_wordOf]; omega

@[simp] theorem loByte_wordOf (hi lo : Byte) : loByte (wordOf hi lo) = lo := by
  have := lo.isLt
  apply BitVec.eq_of_toNat_eq
  rw [toNat_loByte, toNat_wordOf]; omega

@[simp] theorem length_wordBytes (w : Word) : (wordBytes w).length = 2 := rfl

@[simp] theorem length_addrBytes (a : BitVec 32) : (addrBytes a).length = 4 := rfl

theorem byteAt_readBytes (m : Memory) (off n : Nat) {i : Nat} (h : i < n) :
    byteAt (m.readBytes off n) i = m.read (off + i) := by
  rw [byteAt, List.getD_eq_getElem _ _ (by simpa using h), Memory.getElem_readBytes]

end Sys2Proof.Machine
end

