-- ==== Sys2Proof/Laws/PerInstr.lean ====
section
/-! SUPPORT. One family of facts about every command as syntax: its command word has format Z, carries its
opcode, and is read back by the decoder under the numbering of spec/opcode_table.json. -/

namespace Sys2Proof.Laws.CommandWord

/-- The command is well formed; its word has format Z with its opcode in `c[7:0]` (30_encoding.md R61, R62) and
decodes to it. -/
def Statement (i : Instr) : Prop :=
  i.wellFormed = true ∧ formatZ (encode i) = true ∧ opcodeField (encode i) = opcode i ∧
    decodeTableWord 32 (encode i).toNat = some i

theorem csum : Statement .csum := by unfold Statement; decide
theorem ip4dec : Statement .ip4dec := by unfold Statement; decide
theorem ip4enc : Statement .ip4enc := by unfold Statement; decide
theorem udpdec : Statement .udpdec := by unfold Statement; decide
theorem udpenc : Statement .udpenc := by unfold Statement; decide
theorem slice : Statement .slice := by unfold Statement; decide
theorem xform : Statement .xform := by unfold Statement; decide
theorem echo : Statement .echo := by unfold Statement; decide
theorem optcpy : Statement .optcpy := by unfold Statement; decide
theorem srst : Statement .srst := by unfold Statement; decide

end Sys2Proof.Laws.CommandWord
end

