-- ==== Sys2Proof/Tests/Slice0.lean ====
section
/-! SUPPORT. Small tests and witnesses. Expected results are the spec's own vectors (95_test_vectors.md), named in
each comment, or words written out from the encodings of 30_encoding.md. A witness shows a concrete state and
operands that meet the hypotheses of one clause of an obligation. -/

namespace Sys2Proof.Tests

open Sys2Proof.Machine

/-! ### Helpers -/

/-- The bytes of a hex listing given as numbers. -/
def bytes (ns : List Nat) : List Byte := ns.map (BitVec.ofNat 8)

/-- A buffer that holds `bs` from offset 0. -/
def bufferOf (bs : List Byte) : Memory := Memory.writeBytes ⟨[]⟩ 0 bs

/-- After reset, with a frame delivered (LDRX). -/
def loaded (bs : List Byte) : State :=
  { State.reset with rx := bufferOf bs, rxlen := BitVec.ofNat 16 bs.length }

/-- After reset, with a payload delivered (LDPAY). -/
def withPay (bs : List Byte) (s : State) : State :=
  { s with pay := bufferOf bs, paylen := BitVec.ofNat 16 bs.length }

/-- After reset, with the host's next transactions. -/
def hosted (es : List HostEvent) : State := { State.reset with hostIn := es }

/-- The next state of a command, if it has one. -/
def after (i : Instr) (s : State) : Option State :=
  match exec i s with
  | .next t => some t
  | .fault _ => none
  | .refused _ => none

/-- The next state of a step, if it has one. -/
def stepped (s : State) : Option State :=
  match step s with
  | .next t => some t
  | .fault _ => none
  | .refused _ => none

/-- F31 of 95_test_vectors.md. -/
def f31 : List Byte := bytes
  [0x45, 0x00, 0x00, 0x1f, 0x1c, 0x46, 0x40, 0x00, 0x40, 0x11, 0x08, 0x80, 0x0a, 0x01, 0x01, 0x05,
   0x0a, 0x01, 0x01, 0x02, 0x13, 0x88, 0x00, 0x07, 0x00, 0x0b, 0xd2, 0x3e, 0x01, 0x02, 0x03]

/-- E31 of 95_test_vectors.md. -/
def e31 : List Byte := bytes
  [0x45, 0x00, 0x00, 0x1f, 0x1c, 0x46, 0x40, 0x00, 0x40, 0x11, 0x08, 0x80, 0x0a, 0x01, 0x01, 0x02,
   0x0a, 0x01, 0x01, 0x05, 0x00, 0x07, 0x13, 0x88, 0x00, 0x0b, 0xd2, 0x3e, 0x01, 0x02, 0x03]

/-- The header of the source's example S3, checksum field zero. -/
def s3 : List Byte := bytes
  [0x45, 0x00, 0x00, 0x3c, 0x1c, 0x46, 0x40, 0x00, 0x40, 0x11, 0x00, 0x00, 0xc0, 0xa8, 0x00, 0x01,
   0xc0, 0xa8, 0x00, 0xc7]

/-- The header part of the frame of V21: no field trivial. -/
def v21 : List Byte := bytes
  [0x65, 0x00, 0x00, 0x1c, 0x1c, 0x46, 0xbf, 0xff, 0x01, 0x06, 0x08, 0x83, 0x0a, 0x01, 0x01, 0x05,
   0x0a, 0x01, 0x01, 0x02, 0x00, 0x01, 0x00, 0x02, 0x00, 0x08, 0xe9, 0xd2]

/-- The fields of V21, as the vector lists them. -/
def v21Fields : IpFields :=
  { ver := 6, ihl := 5, tos := 0, tlen := 0x001C, id := 0x1C46, flags := 5, frag := 0x1FFF, ttl := 1, proto := 6,
    csum := 0x0883, src := 0x0A010105, dst := 0x0A010102 }

/-- The 36-byte frame of V61: IHL 6, wrong received checksums. -/
def v61 : List Byte := bytes
  [0x46, 0x00, 0x00, 0x24, 0x1c, 0x46, 0x40, 0x00, 0x40, 0x11, 0xde, 0xad, 0x0a, 0x01, 0x01, 0x05,
   0x0a, 0x01, 0x01, 0x02, 0x94, 0x04, 0x00, 0x00, 0x13, 0x88, 0x00, 0x07, 0x00, 0x0c, 0xbe, 0xef,
   0xde, 0xad, 0xbe, 0xef]

/-- The fields and registers of V32, before XFORM: F31 decoded. -/
def v32 : State :=
  withPay (bytes [1, 2, 3]) { State.reset with
    ip := { ver := 4, ihl := 5, tos := 0, tlen := 31, id := 0x1C46, flags := 2, frag := 0, ttl := 64, proto := 17,
            csum := 0x0880, src := 0x0A010105, dst := 0x0A010102 }
    udp := { sport := 0x1388, dport := 0x0007, len := 0x000B, csum := 0xD23E } }

/-- The registers of V30 and V31, before XFORM. -/
def v30 : State :=
  withPay (bytes [0xd6, 0x42]) { State.reset with
    ip := { ver := 4, ihl := 5, tos := 0, tlen := 30, id := 0x1C46, flags := 2, frag := 0, ttl := 64, proto := 17,
            csum := 0, src := 0x0A010105, dst := 0x0A010102 }
    udp := { sport := 5000, dport := 7, len := 10, csum := 0 } }

/-- The registers of V45: a UDP packet to encode at the start of TXBUF. -/
def v45 : State :=
  withPay (bytes [1, 2, 3]) { State.reset with udp := { sport := 7, dport := 5000, len := 11, csum := 0xD23E } }

/-! ### Decoding: one word per command, written out from R61 and R62 -/

theorem test_decode_csum : decode 0b00000000000000000000000000000001#32 = .ok .csum := by decide
theorem test_decode_ip4dec : decode 0b00000000000000000000000000000010#32 = .ok .ip4dec := by decide
theorem test_decode_ip4enc : decode 0b00000000000000000000000000000011#32 = .ok .ip4enc := by decide
theorem test_decode_udpdec : decode 0b00000000000000000000000000000100#32 = .ok .udpdec := by decide
theorem test_decode_udpenc : decode 0b00000000000000000000000000000101#32 = .ok .udpenc := by decide
theorem test_decode_slice : decode 0b00000000000000000000000000000110#32 = .ok .slice := by decide
theorem test_decode_xform : decode 0b00000000000000000000000000000111#32 = .ok .xform := by decide
theorem test_decode_echo : decode 0b00000000000000000000000000001000#32 = .ok .echo := by decide
theorem test_decode_optcpy : decode 0b00000000000000000000000000001001#32 = .ok .optcpy := by decide
theorem test_decode_srst : decode 0b00000000000000000000000000001111#32 = .ok .srst := by decide

/-- V70, V72: words with `zero = 0` that are no command. -/
theorem test_decode_unassigned : ([0x00#32, 0x0A#32, 0x0E#32, 0x10#32, 0xFF#32].map decode).all
    (fun r => r matches .error .unassignedOpcode) = true := by decide

/-- V71, V72: words with a bit of `zero` set. -/
theorem test_decode_zero_field : ([0x108#32, 0x80000001#32, 0xFFFFFFFF#32].map decode).all
    (fun r => r matches .error .zeroFieldSet) = true := by decide

theorem test_decodeTableWord : decodeTableWord 32 0x00000008 = some .echo ∧
    decodeTableWord 32 0x00000108 = none := by decide

theorem test_withFetchWord :
    stepped (State.reset.withFetchWord 32 0x0000000F) = after .srst State.reset := by decide

/-! ### Well-formedness: ill-formed terms are refused -/

/-- R61: a word of ECHO's opcode with bit 8 set has not format Z. -/
theorem test_formatZ : formatZ 0x00000108#32 = false ∧ formatZ 0x00000008#32 = true := by decide

/-- R22: offset 65534 is the last byte. -/
theorem test_rangeInBuffer : rangeInBuffer 65534 1 = true ∧ rangeInBuffer 65535 1 = false ∧
    rangeInBuffer 65534 2 = false := by decide

/-- R185: reserved numbers and offsets name nothing. -/
theorem test_addressable : (HostEvent.hrd 0x0B).addressable = false ∧ (HostEvent.hwr 0x24 0).addressable = false ∧
    (HostEvent.hbr .rx 65535).addressable = false ∧ (HostEvent.hbw .tx 65535 0).addressable = false := by decide

/-- Cells out of order, and a listed byte equal to the unlisted one, are no canonical form. -/
theorem test_memory_wf : Memory.wf ⟨[(3, 1), (2, 1)]⟩ = false ∧ Memory.wf ⟨[(3, 0)]⟩ = false ∧
    Memory.wf ⟨[(65535, 1)]⟩ = false ∧ Memory.wf ⟨[(2, 1), (3, 1)]⟩ = true := by decide

/-! ### Commands -/

/-- V13: the corrected checksum of S3. -/
theorem test_csum_v13 : (after .csum { loaded s3 with csLen := 20 }).map (fun t => (t.err, t.csRes)) =
    some (0, 0x9C52) := by decide

/-- V17: an odd offset pairs from the offset. -/
theorem test_csum_v17 : (after .csum { loaded s3 with csOff := 1, csLen := 3 }).map (fun t => (t.err, t.csRes)) =
    some (0, 0xC3FF) := by decide

/-- V21. -/
theorem test_ip4dec_v21 : (after .ip4dec (loaded v21)).map (fun t => (t.err, t.ip)) = some (0, v21Fields) := by decide

/-- V25: IHL 6 with 23 bytes received. -/
theorem test_ip4dec_v25 :
    (after .ip4dec (loaded (v61.take 23))).map (fun t => (t.err, t.ip.ihl)) = some (2, 0) := by decide

/-- V22. -/
theorem test_ip4enc_v22 : (after .ip4enc { State.reset with ip := v21Fields }).map
    (fun t => (t.err, t.txlen, t.tx.readBytes 0 20)) = some (0, 28, v21.take 20) := by decide

/-- V27, row 3: the total length below 20. -/
theorem test_ip4enc_v27 : (after .ip4enc { State.reset with
    ip := { v21Fields with ihl := 4, tlen := 19 }, txlen := 77 }).map (fun t => (t.err, t.txlen)) =
    some (3, 77) := by decide

/-- V40. -/
theorem test_udpdec_v40 : (after .udpdec { loaded f31 with slOff := 20, slLen := 11 }).map
    (fun t => (t.err, t.udp, t.paylen, t.pay.readBytes 0 3)) =
    some (0, { sport := 0x1388, dport := 7, len := 0x000B, csum := 0xD23E }, 3, bytes [1, 2, 3]) := by decide

/-- V43: a slice past the received bytes. -/
theorem test_udpdec_v43 : (after .udpdec { loaded (f31.drop 23) with slOff := 1, slLen := 8 }).map
    (fun t => (t.err, t.udp.len)) = some (1, 0) := by decide

/-- V45. -/
theorem test_udpenc_v45 : (after .udpenc v45).map (fun t => (t.err, t.txlen, t.tx.readBytes 0 11)) =
    some (0, 11, bytes [0x00, 0x07, 0x13, 0x88, 0x00, 0x0b, 0xd2, 0x3e, 0x01, 0x02, 0x03]) := by decide

/-- V47: the length equation does not wrap. -/
theorem test_udpenc_v47 : (after .udpenc { v45 with
    udp := { v45.udp with len := 7 }, paylen := 65535 }).map (·.err) = some 3 := by decide

/-- V51. -/
theorem test_slice_v51 : (after .slice { State.reset with
    ip := { v21Fields with ihl := 6, tlen := 36 }, rxlen := 36 }).map (fun t => (t.err, t.slOff, t.slLen)) =
    some (0, 24, 12) := by decide

/-- V53: more bytes declared than received. -/
theorem test_slice_v53 : (after .slice { State.reset with
    ip := { v21Fields with ihl := 5, tlen := 32 }, rxlen := 31, slLen := 9 }).map (fun t => (t.err, t.slLen)) =
    some (2, 9) := by decide

/-- V32, for either value of `UDP_ZERO_SUBST`. -/
theorem test_xform_v32 (b : Bool) : (xformWith b v32).ip = { v32.ip with
      src := 0x0A010102, dst := 0x0A010105, csum := 0x0880 } ∧
    (xformWith b v32).udp = { sport := 0x0007, dport := 0x1388, len := 0x000B, csum := 0xD23E } := by
  revert b; decide

/-- V30 and V31: the zero UDP checksum, without and with the substitution. -/
theorem test_xform_v30_v31 : (xformWith false v30).udp.csum = 0x0000 ∧ (xformWith true v30).udp.csum = 0xFFFF ∧
    (xformWith true v30).ip.csum = 0x0881 := by decide

/-- V60. -/
theorem test_echo_v60 :
    (after .echo (loaded f31)).map (fun t => (t.err, t.txlen, t.tx.readBytes 0 31)) = some (0, 31, e31) := by
  decide

/-- X11: a failure at stage 7 leaves the new header in TXBUF and TXLEN 0. -/
theorem test_echo_x11 :
    (after .echo { loaded (f31.set 3 0x1c) with txlen := 99 }).map
      (fun t => (t.err, t.txlen, t.paylen, t.tx.readBytes 0 12)) =
    some (3, 0, 0, bytes [0x45, 0x00, 0x00, 0x1c, 0x1c, 0x46, 0x40, 0x00, 0x40, 0x11, 0x08, 0x83]) := by decide

/-- V57. -/
theorem test_optcpy_v57 : (after .optcpy { loaded v61 with slOff := 24, txlen := 5 }).map
    (fun t => (t.err, t.txlen, t.tx.readBytes 20 5)) = some (0, 5, bytes [0x94, 0x04, 0, 0, 0]) := by decide

/-- V59b. -/
theorem test_optcpy_v59b : (after .optcpy { loaded v61 with slOff := 37 }).map
    (fun t => (t.err, t.tx.readBytes 20 2)) = some (1, bytes [0, 0]) := by decide

/-- V77. -/
theorem test_srst_v77 : (after .srst { v32 with err := 3, rxlen := 31, csRes := 9 }).map
    (fun t => (t.err, t.rxlen, t.paylen, t.csRes, t.ip == v32.ip)) = some (0, 0, 0, 9, true) := by decide

/-! ### The Checksum Engine -/

/-- V6: two replacements are needed. -/
theorem test_checksum_v6 : checksum [0xFFFF, 0xFFFF, 0x0001] = 0xFFFE ∧ checksum [] = 0xFFFF := by decide

/-- V11. -/
theorem test_words_v11 : wordsOfBytes (bytes [1, 2, 3]) = [0x0102, 0x0300] ∧
    wordsOfBytes (bytes [1, 2, 3, 4]) = [0x0102, 0x0304] ∧ wordsOfBytes (bytes [0xAB]) = [0xAB00] := by decide

/-! ### Host transactions -/

/-- V75, V76: a write keeps the low bits. -/
theorem test_hwr_v75_v76 : (stepped (hosted [.hwr 0x02 0x12345])).map (·.rxlen) = some 0x2345 ∧
    (stepped (hosted [.hwr 0x07 7])).map (·.csSel) = some 3 := by decide

/-- V74: a write to ERR is ignored. -/
theorem test_hwr_v74 : (stepped (hosted [.hwr 0x01 7])).map (·.err) = some 0 := by decide

/-- V79: a byte above RXLEN. -/
theorem test_hbw_v79 : (stepped (hosted [.hbw .rx 40 0x55])).bind (fun t =>
    (stepped { t with hostIn := [.hbr .rx 40] }).map (·.hostOut)) = some [.byte 0x55] := by decide

/-! ### Host programs that look at ERR -/

/-- The next state of a host program, if it has one. -/
def ran (ls : List HostLine) (s : State) : Option State :=
  match runLines ls s with
  | .next t => some t
  | .fault _ => none
  | .refused _ => none

/-- P2: seven reads of ERR, all 0, and the frame of V61 echoed. -/
theorem test_echoseq_p2 : (ran echoseq (loaded v61)).map (fun t => (t.hostOut, t.txlen, t.tx.readBytes 10 2)) =
    some (List.replicate 7 (.reg 0), 36, bytes [0x07, 0x7b]) := by decide

/-- X10: the third command fails, and the host stops after the third read. -/
theorem test_echoseq_x10 : (ran echoseq (loaded (f31.set 3 0x1b))).map (fun t => (t.hostOut, t.err)) =
    some ([.reg 0, .reg 0, .reg 1], 1) := by decide

/-- P5: ECHOX on registers the host filled (V36). -/
theorem test_echox_p5 : (ran echox (withPay (bytes [0x68, 0x69]) { State.reset with
    slOff := 20
    ip := { ver := 4, ihl := 5, tos := 0, tlen := 30, id := 1, flags := 0, frag := 0, ttl := 0x20, proto := 17,
            csum := 0xAAAA, src := 0xC0A80001, dst := 0xC0A800C7 }
    udp := { sport := 0x1234, dport := 0x0035, len := 10, csum := 0x5555 } })).map
      (fun t => (t.hostOut, t.txlen, t.ip.csum, t.tx.readBytes 24 6)) =
    some ([.reg 0, .reg 0], 30, 0x18B6, bytes [0x00, 0x0a, 0x02, 0xef, 0x68, 0x69]) := by decide

/-! ### Witnesses: hypotheses of the obligations, clause by clause -/

/-- DecodeAndEncodeAgree, IpHeaderLayoutIsABijection, UdpHeaderLayoutIsABijection. -/
theorem witness_encoding : Instr.echo.wellFormed = true ∧ decode 0x0F#32 = .ok .srst ∧ (v21.take 20).length = 20 ∧
    (f31.take 8).length = 8 := by decide

/-- StepRunsTheIssuedCommand: a legal and an illegal word. -/
theorem witness_issue : (hosted [.hwr 0x00 0x08]).hostIn = .hwr 0x00 0x08 :: [] ∧ decode 0x08#32 = .ok .echo ∧
    (hosted [.hwr 0x00 0x18]).hostIn = .hwr 0x00 0x18 :: [] ∧ decode 0x18#32 = .error .unassignedOpcode := by decide

/-- StepTakesTheNextTransaction. -/
theorem witness_step : State.reset.hostIn = [] ∧ (hosted [.hrd 0x01]).hostIn = .hrd 0x01 :: [] := by decide

/-- IllegalWordChangesOnlyErr: each clause of the hypothesis at its boundaries. -/
theorem witness_illegal : (0x100#32).toNat / 256 ≠ 0 ∧ (0xFFFFFFFF#32).toNat / 256 ≠ 0 ∧
    (∀ c ∈ [0x00#32, 0x0A#32, 0x0E#32, 0x10#32, 0xFF#32], c.toNat / 256 = 0 ∧ (c.toNat % 256 = 0x00 ∨
      (0x0A ≤ c.toNat % 256 ∧ c.toNat % 256 ≤ 0x0E) ∨ 0x10 ≤ c.toNat % 256)) := by
  simp

/-- OnlyReservedTransactionsAreRefused: both ends of each reserved range and of each range between them, the
first offset outside, and transactions that meet the last clause. -/
theorem witness_reserved : (∀ n ∈ [0x0B, 0x0F, 0x1C, 0x1F, 0x24, 1000], ReservedNumber n) ∧
    (∀ n ∈ [0x00, 0x0A, 0x10, 0x1B, 0x20, 0x23], ¬ ReservedNumber n) ∧ 65535 ≤ 65535 ∧ 65534 < 65535 := by
  decide

theorem witness_not_reserved : (∀ n, (HostEvent.hrd 0x23 = .hrd n ∨ ∃ v, HostEvent.hrd 0x23 = .hwr n v) →
      ¬ ReservedNumber n) ∧
    (∀ buf off, (HostEvent.hrd 0x23 = .hbr buf off ∨ ∃ b, HostEvent.hrd 0x23 = .hbw buf off b) → off < 65535) ∧
    (∀ buf off, (HostEvent.hbr .tx 65534 = .hbr buf off ∨ ∃ b, HostEvent.hbr .tx 65534 = .hbw buf off b) →
      off < 65535) := by
  refine ⟨?_, ?_, ?_⟩
  · rintro n (h | ⟨v, h⟩) <;> cases h; decide
  · rintro buf off (h | ⟨b, h⟩) <;> cases h
  · rintro buf off (h | ⟨b, h⟩) <;> cases h; decide

/-- HostReadsReturnTheValue: the first and the last register, the last offset. -/
theorem witness_host_reads : (0x00, 0) ∈ registerValues v32 ∧ (0x23, 0xD23E) ∈ registerValues v32 ∧ 65534 < 65535 := by
  decide

/-- HwrKeepsTheLowBits: the first and the last writable register, and the words CMD may get. -/
theorem witness_hwr : (0x02, 16) ∈ writableWidths ∧ (0x15, 3) ∈ writableWidths ∧ (0x23, 16) ∈ writableWidths ∧
    decode 5#32 = .ok .udpenc ∧ decode 0#32 = .error .unassignedOpcode := by decide

/-- HbwWritesOneByte: the last offset. -/
theorem witness_hbw : 65534 < Config.bufMax ∧ 65534 < 65535 := by decide

/-- FramesAreDeliveredAndCollected: a delivery and a collection. -/
theorem witness_frames : f31.length ≤ 65535 ∧ (hosted (ldrx f31)).hostIn = ldrx f31 ++ [] ∧
    (hosted (rdtx State.reset.txlen.toNat)).hostIn = rdtx State.reset.txlen.toNat ++ [] ∧
    rdtx 2 = [.hrd 0x03, .hbr .tx 0, .hbr .tx 1] ∧
    ldrx (bytes [9, 8]) = [.hbw .rx 0 9, .hbw .rx 1 8, .hwr 0x02 2] := by decide

/-- HardwareResetZeroesTheNineRegisters, NothingDecodesBeforeAFrameIsLoaded. -/
theorem witness_reset : (hosted [.reset]).hostIn = .reset :: [] ∧ AfterReset State.reset := by decide

/-- WordsPairFromTheFirstByte: a whole pair, and the last byte of an odd sequence. -/
theorem witness_words : 2 * 0 + 1 < (bytes [1, 2, 3]).length ∧ 2 * 1 + 1 = (bytes [1, 2, 3]).length := by decide

/-- AccumulatorIsTheExactSum, ChecksumIsTheComplementOfTheSum. -/
theorem witness_sum : [0xFFFF#16, 0x0001#16].length ≤ 65537 ∧ (List.replicate 65537 0xFFFF#16).length ≤ 65537 :=
  ⟨by decide, Nat.le_of_eq List.length_replicate⟩

/-- FoldEndsAfterTwoReplacements: both sides of the loop's test. -/
theorem witness_fold : (0xFFFF#32).toNat ≤ 0xFFFF ∧ 0xFFFF < (0x10000#32).toNat ∧ 0xFFFF < (0xFFFFFFFF#32).toNat := by
  decide

/-- ChecksumValidatesToZero: a reordering, a deleted zero word, a zero word to fill, and a sequence whose
checksum is 0. -/
theorem witness_validate : [1#16, 2#16].Perm [2#16, 1#16] ∧
    [1#16, 0#16].filter (· ≠ 0) = [1#16].filter (· ≠ 0) ∧
    [0x1234#16, 0#16] = [0x1234#16] ++ 0 :: [] ∧
    [0xFFFF#16, 0#16] = [0xFFFF#16] ++ 0 :: [] ∧ checksum [0xFFFF#16, 0#16] = 0 := by decide

/-- EvenPartsConcatenate: an even part, and a UDP record with checksum field 0. -/
theorem witness_even : (bytes [1, 2]).length % 2 = 0 ∧ (bytes []).length % 2 = 0 ∧ v30.udp.csum = 0 := by decide

/-- CsumSumsTheSelectedRange: the reserved selector, one byte past the valid length (V14), the empty range at
the very end (V15), each buffer. -/
theorem witness_csum : ({ State.reset with csSel := 3 } : State).csSel = 3 ∧
    (let s := { loaded s3 with csLen := 21 }; s.csSel = 0 ∧ (s.validLength .rx).toNat < s.csOff.toNat + s.csLen.toNat) ∧
    (let s := { loaded s3 with csOff := 20 }; s.csSel = 0 ∧ s.csOff.toNat + s.csLen.toNat ≤ (s.validLength .rx).toNat) ∧
    (let s := { loaded s3 with csSel := 1, csLen := 1 }; s.csSel = 1 ∧
      (s.validLength .tx).toNat < s.csOff.toNat + s.csLen.toNat) ∧
    (let s := { loaded s3 with csSel := 1, txlen := 4, csLen := 4 }; s.csSel = 1 ∧
      s.csOff.toNat + s.csLen.toNat ≤ (s.validLength .tx).toNat) ∧
    (let s := { v32 with csSel := 2, csLen := 4 }; s.csSel = 2 ∧
      (s.validLength .pay).toNat < s.csOff.toNat + s.csLen.toNat) ∧
    (let s := { v32 with csSel := 2, csLen := 3 }; s.csSel = 2 ∧
      s.csOff.toNat + s.csLen.toNat ≤ (s.validLength .pay).toNat) := by decide

/-- Ip4decLoadsTheTwelveFields: 19 bytes (V23), IHL 4 (V24), IHL 6 with 23 bytes and with 24 (V25), and F31. -/
theorem witness_ip4dec : (loaded (f31.take 19)).rxlen.toNat < 20 ∧
    (let s := loaded (f31.set 0 0x44); 20 ≤ s.rxlen.toNat ∧ byteNat s.rx 0 % 16 < 5) ∧
    (let s := loaded (v61.take 23); 20 ≤ s.rxlen.toNat ∧ s.rxlen.toNat < headerLen s.rx) ∧
    (let s := loaded (v61.take 24); 20 ≤ s.rxlen.toNat ∧ 5 ≤ byteNat s.rx 0 % 16 ∧ headerLen s.rx ≤ s.rxlen.toNat) ∧
    (let s := loaded f31; 20 ≤ s.rxlen.toNat ∧ 5 ≤ byteNat s.rx 0 % 16 ∧ headerLen s.rx ≤ s.rxlen.toNat) := by decide

/-- Ip4encWritesTheFixedHeader: rows of V27. -/
theorem witness_ip4enc :
    (let s := { State.reset with ip := { v21Fields with ihl := 6, tlen := 23 } }; s.ip.tlen.toNat < s.ip.ihl.toNat * 4) ∧
    (let s := { State.reset with ip := { v21Fields with ihl := 4, tlen := 19 } }; s.ip.tlen.toNat < 20) ∧
    (let s := { State.reset with ip := { v21Fields with ihl := 4, tlen := 20 } };
      s.ip.ihl.toNat * 4 ≤ s.ip.tlen.toNat ∧ 20 ≤ s.ip.tlen.toNat) ∧
    (let s := { State.reset with ip := { v21Fields with ihl := 15, tlen := 60 } };
      s.ip.ihl.toNat * 4 ≤ s.ip.tlen.toNat ∧ 20 ≤ s.ip.tlen.toNat) := by decide

/-- Ip4DecodeEncodeRoundTrip: V21, and the 20-byte frame of S1. -/
theorem witness_ip_round_trip :
    (after .ip4dec (loaded v21)).any (fun t => t.err = 0 ∧ t.ip.ihl.toNat * 4 ≤ t.ip.tlen.toNat) = true ∧
    (let s := loaded ((f31.take 20).set 3 0x14); byteNat s.rx 0 % 16 = 5 ∧ field16 s.rx 2 = 20 ∧ s.rxlen.toNat = 20 ∧
      (after .ip4dec s).any (fun t => t.err = 0 ∧ t.ip.ihl.toNat * 4 ≤ t.ip.tlen.toNat) = true) := by decide

/-- UdpdecCopiesTheSlice: V43, V42, and the smallest slice at the end of the frame. -/
theorem witness_udpdec :
    (let s := { loaded (f31.drop 23) with slOff := 1, slLen := 8 }; s.rxlen.toNat < s.slOff.toNat + s.slLen.toNat) ∧
    (let s := { loaded (f31.drop 23) with slLen := 7 }; s.slLen.toNat < 8) ∧
    (let s := { loaded (f31.drop 23) with slLen := 8 };
      s.slOff.toNat + s.slLen.toNat ≤ s.rxlen.toNat ∧ 8 ≤ s.slLen.toNat) ∧
    (let s := { loaded f31 with slOff := 20, slLen := 11 };
      s.slOff.toNat + s.slLen.toNat ≤ s.rxlen.toNat ∧ 8 ≤ s.slLen.toNat) := by decide

/-- UdpencWritesHeaderAndPayload: V47, and V46 on both sides of its bound. -/
theorem witness_udpenc :
    (let s := { v45 with udp := { v45.udp with len := 7 }, paylen := 65535 }; s.udp.len.toNat ≠ 8 + s.paylen.toNat) ∧
    (let s := { v45 with slOff := 65525 }; 65535 < s.slOff.toNat + s.udp.len.toNat) ∧
    (let s := { v45 with slOff := 65524 };
      s.udp.len.toNat = 8 + s.paylen.toNat ∧ s.slOff.toNat + s.udp.len.toNat ≤ 65535) := by decide

/-- UdpDecodeEncodeRoundTrip: V48, and a length field that disagrees (X12). -/
theorem witness_udp_round_trip :
    (after .udpdec { loaded f31 with slOff := 20, slLen := 11 }).any (fun t => t.err = 0 ∧ t.udp.len = t.slLen) = true ∧
    (after .udpdec { loaded (f31.set 25 0x0c) with slOff := 20, slLen := 11 }).any
      (fun t => t.err = 0 ∧ t.udp.len ≠ t.slLen) = true := by decide

/-- SliceDelimitsThePayload: V52, V53, and the boundary V54. -/
theorem witness_slice :
    (let s := { State.reset with ip := { v21Fields with tlen := 19 }, rxlen := 31 };
      s.ip.tlen.toNat < s.ip.ihl.toNat * 4) ∧
    (let s := { State.reset with ip := { v21Fields with tlen := 32 }, rxlen := 31 }; s.rxlen.toNat < s.ip.tlen.toNat) ∧
    (let s := { State.reset with ip := { v21Fields with tlen := 20 }, rxlen := 20 };
      s.ip.ihl.toNat * 4 ≤ s.ip.tlen.toNat ∧ s.ip.tlen.toNat ≤ s.rxlen.toNat) := by decide

/-- OptcpyCarriesTheOptionBytes: V59b, and SL_OFF equal to RXLEN. -/
theorem witness_optcpy :
    (let s := { loaded v61 with slOff := 37 }; s.rxlen.toNat < s.slOff.toNat) ∧
    (let s := { loaded v61 with slOff := 36 }; s.slOff.toNat ≤ s.rxlen.toNat) := by decide

/-- SwapKeepsBothChecksums. -/
theorem witness_xform : ∃ t, exec .xform v32 = .next t := ⟨_, rfl⟩

/-- EchoOutcomeFollowsTheFrame: every row of the table of R203 is some frame's (X1, X3, X6, X9, X8, X10, X12,
V60), and the row gives the code and the stage. -/
theorem witness_echo_rows :
    ([loaded (f31.take 19), loaded (f31.set 0 0x44), loaded ((f31.take 20).set 0 0x46), loaded (f31.set 3 0x13),
      loaded (f31.set 3 0x20), loaded (f31.set 3 0x1b), loaded (f31.set 25 0x0c), loaded f31].map
        fun s => (echoCode s, echoStage s)) =
      [(1, 1), (2, 1), (2, 1), (2, 2), (2, 2), (1, 3), (3, 7), (0, 0)] := by decide

/-- EchoSuccessPostcondition: F31, and a frame with options (V61). -/
theorem witness_echo_accepts : EchoAccepts (loaded f31) ∧ EchoAccepts (loaded v61) := by decide

/-- EchoOfAnEchoedFrame: F31 and its echo E31; the checksum fields of F31 are already as ECHO computes them. -/
theorem witness_echo_of_echo : (after .echo (loaded f31)).any (fun t => t.err = 0 ∧
    rxFrame (loaded e31) = txFrame t ∧ t.tx.read 10 = (loaded f31).rx.read 10 ∧
    t.tx.read 11 = (loaded f31).rx.read 11 ∧ t.tx.read 26 = (loaded f31).rx.read 26 ∧
    t.tx.read 27 = (loaded f31).rx.read 27 ∧ headerLen (loaded f31).rx = 20) = true := by decide

/-- EchoDependsOnTheFrameAlone: two states with one frame and different registers and stale bytes. -/
theorem witness_echo_frame : rxFrame (loaded f31) =
    rxFrame { v32 with rx := bufferOf (f31 ++ bytes [7]), rxlen := 31, tx := bufferOf (bytes [1]) } := by decide

/-- EchoEqualsItsCommandSequence: both cases of its conclusion occur. -/
theorem witness_echo_sequence : (after .echo (loaded f31)).any (·.err = 0) = true ∧
    (after .echo (loaded (f31.set 25 0x0c))).any (·.err ≠ 0) = true := by decide

/-- EchoseqRunsItsCommandsAndReadsErr: both cases of its conclusion occur. -/
theorem witness_echoseq : (ran echoseq (loaded f31)).any (·.err = 0) = true ∧
    (ran echoseq (loaded (f31.set 25 0x0c))).any (·.err ≠ 0) = true := by decide

/-- EchoxTransformsAndEncodes: a total length too short, and the registers of V46 on both sides of its bound. -/
theorem witness_echox :
    (let s := { v45 with ip := { v21Fields with tlen := 19 } }; s.ip.tlen.toNat < s.ip.ihl.toNat * 4) ∧
    (let s := { v45 with ip := { v21Fields with tlen := 20 }, slOff := 65525 };
      s.ip.ihl.toNat * 4 ≤ s.ip.tlen.toNat ∧ 20 ≤ s.ip.tlen.toNat ∧ 65535 < s.slOff.toNat + s.udp.len.toNat) ∧
    (let s := { v45 with ip := { v21Fields with tlen := 20 }, paylen := 4 };
      s.ip.ihl.toNat * 4 ≤ s.ip.tlen.toNat ∧ 20 ≤ s.ip.tlen.toNat ∧ s.udp.len.toNat ≠ 8 + s.paylen.toNat) ∧
    (let s := { v45 with ip := { v21Fields with tlen := 20 }, slOff := 65524 };
      s.ip.ihl.toNat * 4 ≤ s.ip.tlen.toNat ∧ 20 ≤ s.ip.tlen.toNat ∧ s.udp.len.toNat = 8 + s.paylen.toNat ∧
      s.slOff.toNat + s.udp.len.toNat ≤ 65535) := by decide

/-- CsumrReturnsErrAndTheChecksum: V14 and V13. -/
theorem witness_csumr :
    (let s := { loaded s3 with hostIn := csumr .rx 0 21 }; s.hostIn = csumr .rx 0 21 ++ [] ∧
      (s.validLength .rx).toNat < (0#32).toNat % 65536 + (21#32).toNat % 65536) ∧
    (let s := { loaded s3 with hostIn := csumr .rx 0 20 }; s.hostIn = csumr .rx 0 20 ++ [] ∧
      (0#32).toNat % 65536 + (20#32).toNat % 65536 ≤ (s.validLength .rx).toNat) := by decide

/-- FailingCommandWritesOnlyErr: one failing state for each command that can fail. -/
theorem witness_failing : (after .csum { State.reset with csSel := 3 }).any (·.err ≠ 0) = true ∧
    (after .ip4dec State.reset).any (·.err ≠ 0) = true ∧ (after .ip4enc State.reset).any (·.err ≠ 0) = true ∧
    (after .udpdec State.reset).any (·.err ≠ 0) = true ∧ (after .udpenc State.reset).any (·.err ≠ 0) = true ∧
    (after .slice { State.reset with ip := v21Fields }).any (·.err ≠ 0) = true ∧
    (after .optcpy { State.reset with slOff := 1 }).any (·.err ≠ 0) = true := by decide

/-- CommandsWriteOnlyWhatTheTablesList, StaleBytesAreNeverRead: a command that ends, and the first stale byte. -/
theorem witness_stale : (∃ t, exec .echo (loaded f31) = .next t) ∧ ((loaded f31).validLength .rx).toNat ≤ 31 := by
  exact ⟨⟨_, rfl⟩, by decide⟩

/-- StepKeepsTheInvariant: a state that meets it, with something listed, and that takes a step. -/
theorem witness_invariant : State.Inv { loaded f31 with hostIn := [.hwr 0x00 0x08] } ∧
    (stepped { loaded f31 with hostIn := [.hwr 0x00 0x08] }).isSome = true := by decide

end Sys2Proof.Tests
end

/-! PROOF. The decoder of command words (30_encoding.md R62, R64, R65): it accepts exactly the words `encode` gives,
and the host's write of any other word to CMD raises IllegalCommand. -/

namespace Sys2Proof.Machine

/-! ### The words the decoder accepts -/

/-- The opcode map has one row per command (R62). -/
theorem opcode_eq_of_decodeOpcode {op : BitVec 8} {i : Instr} (h : decodeOpcode op = some i) : op = opcode i := by
  unfold decodeOpcode at h
  split_ifs at h <;> cases h <;> assumption

theorem zeroField_append_opcodeField (c : BusWord) : zeroField c ++ opcodeField c = c :=
  BitVec.extractLsb'_append_extractLsb'

/-- A word decodes to a command exactly when it is the command's word (R65). -/
theorem decode_eq_ok_iff (c : BusWord) (i : Instr) : decode c = .ok i ↔ c = encode i := by
  constructor
  · intro h
    unfold decode at h
    split at h
    next hz =>
      split at h
      next j hj =>
        cases h
        rw [encode, ← opcode_eq_of_decodeOpcode hj, ← hz, zeroField_append_opcodeField]
      next => cases h
    next => cases h
  · rintro rfl
    exact decode_encode i

/-- A word is illegal exactly when it is no command's word (R64, R65). -/
theorem decode_eq_error_iff (c : BusWord) : (∃ e, decode c = .error e) ↔ ∀ i, c ≠ encode i := by
  simp only [ne_eq, ← decode_eq_ok_iff]
  cases decode c with
  | ok i => simp
  | error e => simp

/-- Settles O1: the word of each row is `encode` of the row's command. -/
theorem decodeAcceptsExactlyTheTenWords : Obligations.DecodeAcceptsExactlyTheTenWords := by
  intro c
  have row := decode_eq_ok_iff c
  refine ⟨row .csum, row .ip4dec, row .ip4enc, row .udpdec, row .udpenc, row .slice, row .xform, row .echo,
    row .optcpy, row .srst, (decode_eq_error_iff c).trans ⟨?_, ?_⟩⟩
  · intro h hmem
    fin_cases hmem
    exacts [h .csum rfl, h .ip4dec rfl, h .ip4enc rfl, h .udpdec rfl, h .udpenc rfl, h .slice rfl, h .xform rfl,
      h .echo rfl, h .optcpy rfl, h .srst rfl]
  · rintro h i rfl
    cases i <;> exact h (by decide)

/-! ### An illegal word -/

theorem hostEvent_writeCmd (c : BusWord) (s : State) : hostEvent (.hwr 0x00 c) s = issueCommand c s := rfl

theorem issueCommand_illegal {c : BusWord} (h : ∃ e, decode c = .error e) (s : State) :
    issueCommand c s = raiseError .illegalCommand s := by
  obtain ⟨e, he⟩ := h
  rw [issueCommand, he]

/-- Every command word is an opcode of R62 with nothing above it. -/
theorem toNat_encode_bounds (i : Instr) :
    (1 ≤ (encode i).toNat ∧ (encode i).toNat ≤ 9) ∨ (encode i).toNat = 0x0F := by cases i <;> decide

/-- Settles O9: a word with a bit of `zero` set or with an unassigned opcode is no command's word. -/
theorem illegalWordChangesOnlyErr : Obligations.IllegalWordChangesOnlyErr := by
  intro s c hc
  have hno : ∀ i, c ≠ encode i := by
    rintro i rfl
    have := toNat_encode_bounds i
    omega
  rw [hostEvent_writeCmd, issueCommand_illegal ((decode_eq_error_iff c).2 hno)]
  rfl

end Sys2Proof.Machine

/-! PROOF. The layouts of the IPv4 header, the UDP header and the UDP checksum input (30_encoding.md R70 to R75): each
shared layout function (`wordBytes`, `addrBytes`, `wordAt`, `addrAt`) as numbers and with its inverse, then the two
headers field by field. -/

namespace Sys2Proof.Machine

/-! ### Bit fields as numbers -/

theorem toNat_append_eq {n m : Nat} (x : BitVec n) (y : BitVec m) :
    (x ++ y).toNat = x.toNat * 2 ^ m + y.toNat := by
  rw [BitVec.toNat_append, ← Nat.shiftLeft_add_eq_or_of_lt y.isLt, Nat.shiftLeft_eq]

theorem extractLsb'_eq_ofNat {n : Nat} (start len : Nat) (x : BitVec n) :
    x.extractLsb' start len = BitVec.ofNat len (x.toNat / 2 ^ start) := by
  rw [BitVec.extractLsb', Nat.shiftRight_eq_div_pow]

theorem extractLsb'_zero_eq_ofNat {n : Nat} (len : Nat) (x : BitVec n) :
    x.extractLsb' 0 len = BitVec.ofNat len (x.toNat % 2 ^ len) := by
  apply BitVec.eq_of_toNat_eq
  simp

/-! ### Words and addresses -/

theorem map_toNat_wordBytes (w : Word) : (wordBytes w).map BitVec.toNat = natBytes16 w.toNat := by
  simp [wordBytes, natBytes16, toNat_hiByte, toNat_loByte]

theorem map_toNat_addrBytes (a : BitVec 32) : (addrBytes a).map BitVec.toNat = natBytes32 a.toNat := by
  simp [addrBytes, natBytes32, map_toNat_wordBytes, toNat_hiWord, toNat_loWord]

@[simp] theorem wordBytes_wordOf (hi lo : Byte) : wordBytes (wordOf hi lo) = [hi, lo] := by simp [wordBytes]

@[simp] theorem hiWord_append_loWord (a : BitVec 32) : hiWord a ++ loWord a = a :=
  BitVec.extractLsb'_append_extractLsb'

@[simp] theorem hiWord_append (hi lo : Word) : hiWord (hi ++ lo) = hi := BitVec.extractLsb'_append_eq_left

@[simp] theorem loWord_append (hi lo : Word) : loWord (hi ++ lo) = lo := BitVec.extractLsb'_append_eq_right

theorem wordBytes_wordAt (bs : List Byte) (i : Nat) : wordBytes (wordAt bs i) = [byteAt bs i, byteAt bs (i + 1)] :=
  wordBytes_wordOf _ _

theorem addrBytes_addrAt (bs : List Byte) (i : Nat) :
    addrBytes (addrAt bs i) = [byteAt bs i, byteAt bs (i + 1), byteAt bs (i + 2), byteAt bs (i + 3)] := by
  simp [addrBytes, addrAt, wordBytes_wordAt]

/-- A byte sequence is the list of its elements as the layouts read them. -/
theorem map_byteAt_range (bs : List Byte) : (List.range bs.length).map (byteAt bs) = bs := by
  apply List.ext_getElem (by simp)
  intro i _ hi
  simp [byteAt, hi]

/-! ### Fields of a byte range of a buffer -/

theorem toNat_byteAt_readBytes (m : Memory) (off : Nat) {n i : Nat} (h : i < n) :
    (byteAt (m.readBytes off n) i).toNat = byteNat m (off + i) := by
  rw [byteAt_readBytes m off n h, byteNat]

theorem byteAt_readBytes_eq_ofNat (m : Memory) (off : Nat) {n i : Nat} (h : i < n) :
    byteAt (m.readBytes off n) i = BitVec.ofNat 8 (byteNat m (off + i)) := by
  rw [← toNat_byteAt_readBytes m off h, BitVec.ofNat_toNat, BitVec.setWidth_eq]

theorem wordAt_readBytes (m : Memory) (off : Nat) {n i : Nat} (h : i + 1 < n) :
    wordAt (m.readBytes off n) i = BitVec.ofNat 16 (field16 m (off + i)) := by
  have hw : (wordAt (m.readBytes off n) i).toNat = field16 m (off + i) := by
    rw [wordAt, toNat_wordOf, byteAt_readBytes m off n (by omega), byteAt_readBytes m off n h]; rfl
  rw [← hw, BitVec.ofNat_toNat, BitVec.setWidth_eq]

theorem field16_lt (m : Memory) (a : Nat) : field16 m a < 65536 := by
  have h1 := (m.read a).isLt
  have h2 := (m.read (a + 1)).isLt
  unfold field16 byteNat; omega

theorem addrAt_readBytes (m : Memory) (off : Nat) {n i : Nat} (h : i + 3 < n) :
    addrAt (m.readBytes off n) i = BitVec.ofNat 32 (field32 m (off + i)) := by
  have h1 := field16_lt m (off + i)
  have h2 := field16_lt m (off + i + 2)
  apply BitVec.eq_of_toNat_eq
  rw [addrAt, toNat_append_eq, wordAt_readBytes m off (by omega), wordAt_readBytes m off (by omega), field32,
    ← Nat.add_assoc]
  simp only [BitVec.toNat_ofNat]; omega

/-! ### Bytes that hold two fields (R71) -/

theorem hiNibble_append (x y : BitVec 4) : (x ++ y : BitVec 8).extractLsb' 4 4 = x :=
  BitVec.extractLsb'_append_eq_left

theorem loNibble_append (x y : BitVec 4) : (x ++ y : BitVec 8).extractLsb' 0 4 = y :=
  BitVec.extractLsb'_append_eq_right

/-- IP_FRAG takes the low five bits of byte 6 and all of byte 7 (R72). -/
theorem frag_eq_ofNat (hi lo : Byte) :
    (hi.extractLsb' 0 5 ++ lo : BitVec 13) = BitVec.ofNat 13 (hi.toNat % 32 * 256 + lo.toNat) := by
  rw [extractLsb'_zero_eq_ofNat]
  apply BitVec.eq_of_toNat_eq
  rw [toNat_append_eq]
  simp only [BitVec.toNat_ofNat]
  omega

theorem toNat_hiByte_flags_frag (x : BitVec 3) (y : BitVec 13) :
    (hiByte (x ++ y)).toNat = x.toNat * 32 + y.toNat / 256 := by
  rw [toNat_hiByte, toNat_append_eq]; omega

theorem toNat_loByte_flags_frag (x : BitVec 3) (y : BitVec 13) : (loByte (x ++ y)).toNat = y.toNat % 256 := by
  rw [toNat_loByte, toNat_append_eq]; omega

theorem flags_append_frag (hi lo : Byte) :
    (hi.extractLsb' 5 3 ++ (hi.extractLsb' 0 5 ++ lo : BitVec 13) : BitVec 16) = wordOf hi lo := by
  have := hi.isLt
  apply BitVec.eq_of_toNat_eq
  simp only [toNat_append_eq, toNat_wordOf, extractLsb'_eq_ofNat, BitVec.toNat_ofNat]
  omega

theorem flags_of_hiByte (x : BitVec 3) (y : BitVec 13) : (hiByte (x ++ y)).extractLsb' 5 3 = x := by
  have := x.isLt
  have := y.isLt
  apply BitVec.eq_of_toNat_eq
  simp only [extractLsb'_eq_ofNat, toNat_hiByte_flags_frag, BitVec.toNat_ofNat]
  omega

theorem frag_of_bytes (x : BitVec 3) (y : BitVec 13) :
    ((hiByte (x ++ y)).extractLsb' 0 5 ++ loByte (x ++ y) : BitVec 13) = y := by
  have := y.isLt
  apply BitVec.eq_of_toNat_eq
  simp only [toNat_append_eq, extractLsb'_eq_ofNat, toNat_hiByte_flags_frag, toNat_loByte_flags_frag,
    BitVec.toNat_ofNat]
  omega

/-! ### The IPv4 header (R70 to R72) -/

theorem map_toNat_ipImage (f : IpFields) : (ipImage f).map BitVec.toNat = ipImageNat f := by
  have hff : (wordBytes (f.flags ++ f.frag)).map BitVec.toNat =
      [f.flags.toNat * 32 + f.frag.toNat / 256, f.frag.toNat % 256] := by
    simp only [wordBytes, List.map_cons, List.map_nil, toNat_hiByte_flags_frag, toNat_loByte_flags_frag]
  simp only [ipImage, ipImageNat, List.map_append, map_toNat_wordBytes, map_toNat_addrBytes, hff, List.map_cons,
    toNat_append_eq, List.append_assoc, List.cons_append, List.nil_append, Nat.reducePow]

theorem ipFields_readBytes (m : Memory) : ipFields (m.readBytes 0 20) = ipFieldsOf m := by
  unfold ipFields ipFieldsOf
  rw [frag_eq_ofNat, extractLsb'_zero_eq_ofNat]
  simp only [extractLsb'_eq_ofNat, toNat_byteAt_readBytes, Nat.zero_add, Nat.reduceLT, Nat.reducePow]
  simp only [byteAt_readBytes_eq_ofNat, wordAt_readBytes, addrAt_readBytes, Nat.zero_add, Nat.reduceLT, Nat.reduceAdd]

theorem ipImage_ipFields {bs : List Byte} (h : bs.length = 20) : ipImage (ipFields bs) = bs := by
  calc ipImage (ipFields bs)
      = (List.range 20).map (byteAt bs) := by
        simp only [ipImage, ipFields, flags_append_frag, BitVec.extractLsb'_append_extractLsb', wordBytes_wordAt,
          wordBytes_wordOf, addrBytes_addrAt]
        rfl
    _ = bs := by rw [← h, map_byteAt_range]

/-- Each field is read back from the one or two bytes, or the four, that hold it. -/
theorem ipFields_ipImage (f : IpFields) : ipFields (ipImage f) = f := by
  simp [ipFields, ipImage, byteAt, wordAt, addrAt, wordBytes, addrBytes, flags_of_hiByte, frag_of_bytes,
    hiNibble_append, loNibble_append]

/-- Settles O4: the numbers of each direction and both inverses, each a lemma above. -/
theorem ipHeaderLayoutIsABijection : Obligations.IpHeaderLayoutIsABijection :=
  ⟨map_toNat_ipImage, ipFields_readBytes, fun _ => ipImage_ipFields, ipFields_ipImage⟩

/-! ### The UDP header (R73, R74) -/

theorem map_toNat_udpImage (u : UdpFields) : (udpImage u).map BitVec.toNat = udpImageNat u := by
  simp only [udpImage, udpImageNat, List.map_append, map_toNat_wordBytes]

theorem udpFields_readBytes (m : Memory) (a : Nat) : udpFields (m.readBytes a 8) = udpFieldsOf m a := by
  simp [udpFields, udpFieldsOf, wordAt_readBytes]

theorem udpImage_udpFields {bs : List Byte} (h : bs.length = 8) : udpImage (udpFields bs) = bs := by
  calc udpImage (udpFields bs)
      = (List.range 8).map (byteAt bs) := by simp only [udpImage, udpFields, wordBytes_wordAt]; rfl
    _ = bs := by rw [← h, map_byteAt_range]

theorem udpFields_udpImage (u : UdpFields) : udpFields (udpImage u) = u := by
  simp [udpFields, udpImage, byteAt, wordAt, wordBytes]

/-- Settles O5: as for the IPv4 header, with the range read at any offset. -/
theorem udpHeaderLayoutIsABijection : Obligations.UdpHeaderLayoutIsABijection :=
  ⟨map_toNat_udpImage, udpFields_readBytes, fun _ => udpImage_udpFields, udpFields_udpImage⟩

/-! ### The UDP checksum input (R75, R162) -/

/-- Settles O27: the head is a literal list whose address halves are quotient and remainder by 65536. -/
theorem udpChecksumInputIsPseudoHeaderHeaderPayload : Obligations.UdpChecksumInputIsPseudoHeaderHeaderPayload := by
  intro f u bs
  simp only [udpWords, pseudoWords, udpHeadWordsNat, List.map_cons, toNat_hiWord, toNat_loWord,
    BitVec.toNat_ofNat, List.cons_append, List.nil_append, Nat.reducePow, Nat.reduceMod]

end Sys2Proof.Machine

/-! PROOF. The Checksum Engine (40_checksum.md): `words_of_bytes` element by element and over a concatenation, the
accumulator as a sum, the fold in closed form, and from these the checksum as a function of the sum of its words. -/

namespace Sys2Proof.Machine

/-! ### Words of bytes (R91, R99) -/

@[simp] theorem length_wordsOfBytes (bs : List Byte) : (wordsOfBytes bs).length = (bs.length + 1) / 2 := by
  induction bs using wordsOfBytes.induct with
  | case1 => rfl
  | case2 b => simp [wordsOfBytes]
  | case3 b c rest ih => simp only [wordsOfBytes, List.length_cons, ih]; omega

/-- Word `k` is the big-endian field at offset `2k`; past the end `byteAt` is 0, which is the padding of R91. -/
theorem getD_wordsOfBytes (bs : List Byte) (k : Nat) : (wordsOfBytes bs).getD k 0 = wordAt bs (2 * k) := by
  induction bs using wordsOfBytes.induct generalizing k with
  | case1 => simp [wordsOfBytes, wordAt, byteAt, wordOf]
  | case2 b => cases k <;> simp [wordsOfBytes, wordAt, byteAt, wordOf, Nat.mul_add]
  | case3 b c rest ih =>
    cases k with
    | zero => rfl
    | succ k => rw [wordsOfBytes, List.getD_cons_succ, ih k]; rfl

theorem toNat_byteAt_of_length_le {bs : List Byte} {i : Nat} (h : bs.length ≤ i) : (byteAt bs i).toNat = 0 := by
  rw [byteAt, List.getD_eq_default _ _ h]; rfl

/-- Settles O19: each word is a field at an even offset, and the low byte of an unpaired one is past the end. -/
theorem wordsPairFromTheFirstByte : Obligations.WordsPairFromTheFirstByte := by
  refine fun bs => ⟨length_wordsOfBytes bs, fun k => ?_⟩
  rw [getD_wordsOfBytes, wordAt, toNat_wordOf]
  refine ⟨fun _ => rfl, fun hk => ?_⟩
  rw [toNat_byteAt_of_length_le hk.ge, Nat.add_zero, byteAt]

theorem wordsOfBytes_append {a : List Byte} (b : List Byte) (h : a.length % 2 = 0) :
    wordsOfBytes (a ++ b) = wordsOfBytes a ++ wordsOfBytes b := by
  induction a using wordsOfBytes.induct with
  | case1 => rfl
  | case2 x => simp at h
  | case3 x y rest ih =>
    rw [List.length_cons, List.length_cons] at h
    simp only [List.cons_append, wordsOfBytes, ih (by omega)]

@[simp] theorem wordsOfBytes_wordBytes_append (w : Word) (bs : List Byte) :
    wordsOfBytes (wordBytes w ++ bs) = w :: wordsOfBytes bs := by
  simp [wordBytes, wordsOfBytes]

@[simp] theorem wordsOfBytes_addrBytes_append (a : BitVec 32) (bs : List Byte) :
    wordsOfBytes (addrBytes a ++ bs) = hiWord a :: loWord a :: wordsOfBytes bs := by
  simp [addrBytes]

/-- The UDP checksum input is words of bytes: pseudo-header, header with a zero checksum field, payload (R99). -/
theorem udpWords_eq_wordsOfBytes (f : IpFields) {u : UdpFields} (bs : List Byte) (h : u.csum = 0) :
    udpWords f u bs = wordsOfBytes (addrBytes f.src ++ addrBytes f.dst ++ [0x00, 0x11] ++ wordBytes u.len ++
      udpImage u ++ bs) := by
  have hproto : ([0x00, 0x11] : List Byte) = wordBytes 0x0011#16 := rfl
  simp only [udpWords, pseudoWords, udpImage, hproto, h, List.append_assoc, List.cons_append, List.nil_append,
    wordsOfBytes_wordBytes_append, wordsOfBytes_addrBytes_append]
  rfl

/-- Settles O25: the counterexample for an odd length is one byte before one byte. -/
theorem evenPartsConcatenate : Obligations.EvenPartsConcatenate :=
  ⟨fun _ b => wordsOfBytes_append b, ⟨[1], [1], by decide⟩, fun f _ bs => udpWords_eq_wordsOfBytes f bs⟩

/-! ### The sum (R92) -/

@[simp] theorem wordSum_nil : wordSum [] = 0 := rfl

@[simp] theorem wordSum_cons (w : Word) (ws : List Word) : wordSum (w :: ws) = w.toNat + wordSum ws := rfl

@[simp] theorem wordSum_append (ws vs : List Word) : wordSum (ws ++ vs) = wordSum ws + wordSum vs := by
  simp [wordSum]

theorem wordSum_le (ws : List Word) : wordSum ws ≤ ws.length * 0xFFFF := by
  induction ws with
  | nil => simp
  | cons w ws ih =>
    have := w.isLt
    simp only [wordSum_cons, List.length_cons]; omega

/-- The accumulator from any start `a`, on any number of words: their sum modulo `2^32`. -/
theorem toNat_foldl_add (ws : List Word) (a : BitVec 32) :
    (ws.foldl (fun a w => a + w.setWidth 32) a).toNat = (a.toNat + wordSum ws) % 2 ^ 32 := by
  induction ws generalizing a with
  | nil => simp [Nat.mod_eq_of_lt a.isLt]
  | cons w ws ih =>
    have := w.isLt
    simp only [List.foldl_cons, ih, wordSum_cons, BitVec.toNat_add, BitVec.toNat_setWidth]; omega

/-- 65537 words sum to at most `65537 * 0xFFFF = 2^32 - 1`, so the accumulator does not wrap (R92). -/
theorem toNat_acc {ws : List Word} (h : ws.length ≤ 65537) : (acc ws).toNat = wordSum ws := by
  have := wordSum_le ws
  rw [acc, toNat_foldl_add]
  simp only [BitVec.ofNat_eq_ofNat, BitVec.toNat_ofNat]; omega

/-- Settles O20: the empty accumulator, and the exact sum by the bound on a sum of words. -/
theorem accumulatorIsTheExactSum : Obligations.AccumulatorIsTheExactSum := ⟨rfl, fun _ => toNat_acc⟩

/-! ### The fold (R93, R97) -/

theorem toNat_foldOnce (a : BitVec 32) : (foldOnce a).toNat = a.toNat % 65536 + a.toNat / 65536 := by
  have := a.isLt
  have hlow : a.toNat &&& 0xFFFF = a.toNat % 65536 := Nat.and_two_pow_sub_one_eq_mod a.toNat 16
  simp only [foldOnce, BitVec.toNat_add, BitVec.toNat_and, BitVec.toNat_ushiftRight, Nat.shiftRight_eq_div_pow,
    BitVec.toNat_ofNat, Nat.reducePow, Nat.reduceMod, hlow]
  omega

theorem toNat_foldOnce_le (a : BitVec 32) : (foldOnce a).toNat ≤ 0x1FFFE := by
  have := a.isLt
  rw [toNat_foldOnce]; omega

theorem toNat_foldOnce_foldOnce_le (a : BitVec 32) : (foldOnce (foldOnce a)).toNat ≤ 0xFFFF := by
  have := toNat_foldOnce_le a
  rw [toNat_foldOnce (foldOnce a)]; omega

theorem foldUpTo_of_le {a : BitVec 32} (n : Nat) (h : a.toNat ≤ 0xFFFF) : foldUpTo n a = a := by
  cases n with
  | zero => rfl
  | succ n => exact if_pos (BitVec.le_def.2 h)

theorem foldUpTo_succ_of_lt {a : BitVec 32} (n : Nat) (h : 0xFFFF < a.toNat) :
    foldUpTo (n + 1) a = foldUpTo n (foldOnce a) := by
  simp [foldUpTo, BitVec.le_def, h]

theorem toNat_fold16_of_le {a : BitVec 32} (h : a.toNat ≤ 0xFFFF) : (fold16 a).toNat = a.toNat := by
  rw [fold16, foldUpTo_of_le 2 h, BitVec.toNat_setWidth]; omega

/-- The loop's own equation: two replacements leave a value the loop no longer replaces, so the bound of two on
`foldUpTo` does not show (log entry 10). -/
theorem fold16_of_lt {a : BitVec 32} (h : 0xFFFF < a.toNat) : fold16 a = fold16 (foldOnce a) := by
  rw [fold16, fold16, foldUpTo_succ_of_lt 1 h]
  rcases Nat.lt_or_ge 0xFFFF (foldOnce a).toNat with h1 | h1
  · have h2 := toNat_foldOnce_foldOnce_le a
    rw [foldUpTo_succ_of_lt 0 h1, foldUpTo_succ_of_lt 1 h1, foldUpTo_of_le 0 h2, foldUpTo_of_le 1 h2]
  · rw [foldUpTo_of_le 1 h1, foldUpTo_of_le 2 h1]

/-- Settles O21: the loop's equation and the bounds of each replacement, each a lemma above. -/
theorem foldEndsAfterTwoReplacements : Obligations.FoldEndsAfterTwoReplacements := fun a =>
  ⟨toNat_fold16_of_le, fold16_of_lt, toNat_foldOnce a, toNat_foldOnce_le a, toNat_foldOnce_foldOnce_le a⟩

/-- Each replacement keeps the residue modulo 0xFFFF and maps no positive value to 0 (R97). -/
theorem toNat_fold16 (a : BitVec 32) :
    (fold16 a).toNat = if a.toNat = 0 then 0 else (a.toNat - 1) % 0xFFFF + 1 := by
  rcases Nat.lt_or_ge 0xFFFF a.toNat with h | h
  · rw [fold16_of_lt h, toNat_fold16 (foldOnce a), toNat_foldOnce, if_neg (by omega), if_neg (by omega)]
    omega
  · rw [toNat_fold16_of_le h]
    split <;> omega
termination_by a.toNat
decreasing_by rw [toNat_foldOnce]; omega

/-- Settles O22, by the recursion of the loop. -/
theorem foldHasItsClosedForm : Obligations.FoldHasItsClosedForm := toNat_fold16

/-! ### The checksum (R94) -/

theorem checksum_of_length_le {ws : List Word} (h : ws.length ≤ 65537) : checksum ws = ~~~ fold16 (acc ws) :=
  if_pos h

theorem toNat_checksum {ws : List Word} (h : ws.length ≤ 65537) :
    (checksum ws).toNat = onesComplement (wordSum ws) := by
  rw [checksum_of_length_le h, BitVec.toNat_not, toNat_fold16, toNat_acc h]; rfl

/-- Settles O23: the exact sum and the closed form of its fold. -/
theorem checksumIsTheComplementOfTheSum : Obligations.ChecksumIsTheComplementOfTheSum := fun _ h =>
  ⟨checksum_of_length_le h, toNat_checksum h⟩

theorem checksum_eq_ofNat {ws : List Word} (h : ws.length ≤ 65537) :
    checksum ws = BitVec.ofNat 16 (onesComplement (wordSum ws)) := by
  rw [← toNat_checksum h, BitVec.ofNat_toNat, BitVec.setWidth_eq]

/-- The checksum depends on the sum alone (R98). -/
theorem checksum_eq_of_wordSum_eq {ws vs : List Word} (hw : ws.length ≤ 65537) (hv : vs.length ≤ 65537)
    (h : wordSum ws = wordSum vs) : checksum ws = checksum vs := by
  rw [checksum_eq_ofNat hw, checksum_eq_ofNat hv, h]

end Sys2Proof.Machine

/-! PROOF. The checksums the commands store: CSUM over a range of a buffer (40_checksum.md R100), and XFORM over
swapped endpoints, where the swap exchanges terms of a sum (R104). -/

namespace Sys2Proof.Machine

/-! ### CSUM (R100) -/

theorem exec_csum (s : State) : exec .csum s = standalone csumBody s := rfl

theorem selectedBuffer_eq {sel : BitVec 2} {buf : BufId}
    (h : (sel = 0 ∧ buf = .rx) ∨ (sel = 1 ∧ buf = .tx) ∨ (sel = 2 ∧ buf = .pay)) :
    selectedBuffer sel = some buf := by
  rcases h with ⟨rfl, rfl⟩ | ⟨rfl, rfl⟩ | ⟨rfl, rfl⟩ <;> rfl

/-- A range of a buffer, of a length that fits a register, has at most 32768 words (R96). -/
theorem checksumBytes_readBytes (m : Memory) (off : Nat) (n : BitVec 16) :
    checksumBytes (m.readBytes off n.toNat) =
      BitVec.ofNat 16 (onesComplement (wordSum (wordsOfBytes (m.readBytes off n.toNat)))) := by
  have := n.isLt
  exact checksum_eq_ofNat (by rw [length_wordsOfBytes, Memory.length_readBytes]; omega)

/-- Settles O28: the three outcomes of the body, each with its ERR. -/
theorem csumSumsTheSelectedRange : Obligations.CsumSumsTheSelectedRange := by
  intro s
  rw [exec_csum]
  refine ⟨fun h3 => ?_, fun buf hsel => ⟨fun hlt => ?_, fun hle => ?_⟩⟩
  · have hnone : selectedBuffer s.csSel = none := by rw [h3]; rfl
    exact standalone_error (csumBody_reserved hnone)
  · exact standalone_error (csumBody_truncated (selectedBuffer_eq hsel) hlt)
  · rw [standalone_ok (csumBody_eq (selectedBuffer_eq hsel) hle), checksumBytes_readBytes]; rfl

/-! ### XFORM and the endpoint swap (R104) -/

theorem exec_xform (s : State) : exec .xform s = .next ((xformWith Config.udpZeroSubst s).withErr okCode) := rfl

/-- The four address words are terms of the header sum whichever address comes first. -/
theorem wordSum_ipWords_swap (f : IpFields) (c : Word) :
    wordSum (ipWords { f with csum := c, src := f.dst, dst := f.src }) = wordSum (ipWords f) := by
  simp only [ipWords, wordSum_cons, wordSum_nil]; omega

/-- The four address words and the two port words are terms of the UDP sum whichever comes first; the checksum
fields are not read. -/
theorem wordSum_udpWords_swap (f : IpFields) (u : UdpFields) (bs : List Byte) (c d : Word) :
    wordSum (udpWords { f with csum := c, src := f.dst, dst := f.src }
      { u with csum := d, sport := u.dport, dport := u.sport } bs) = wordSum (udpWords f u bs) := by
  simp only [udpWords, pseudoWords, wordSum_append, wordSum_cons, wordSum_nil]; omega

theorem length_udpWords (f : IpFields) (u : UdpFields) (bs : List Byte) :
    (udpWords f u bs).length = 10 + (bs.length + 1) / 2 := by
  rw [udpWords, List.length_append, length_wordsOfBytes]; rfl

theorem length_udpWords_payload_le (f : IpFields) (u : UdpFields) (s : State) :
    (udpWords f u (payload s)).length ≤ 65537 := by
  have := s.paylen.isLt
  rw [length_udpWords, payload, Memory.length_readBytes]; omega

theorem xformIp_csum (f : IpFields) : (xformIp f).csum = checksum (ipWords f) :=
  checksum_eq_of_wordSum_eq (by simp [ipWords]) (by simp [ipWords]) (wordSum_ipWords_swap f 0)

theorem xformUdp_csum (subst : Bool) (s : State) :
    (xformUdp subst (xformIp s.ip) s.udp (payload s)).csum =
      substituteZero subst (checksum (udpWords s.ip s.udp (payload s))) :=
  congrArg (substituteZero subst) (checksum_eq_of_wordSum_eq (length_udpWords_payload_le _ _ s)
    (length_udpWords_payload_le _ _ s) (wordSum_udpWords_swap s.ip s.udp (payload s) _ 0))

/-- Settles O38: both checksums are computed from sums that the swap leaves alone. -/
theorem swapKeepsBothChecksums : Obligations.SwapKeepsBothChecksums := by
  intro s t h
  rw [exec_xform] at h
  cases h
  exact ⟨xformIp_csum s.ip, xformUdp_csum Config.udpZeroSubst s⟩

end Sys2Proof.Machine

/-! PROOF. The IPv4 Header Codec (41_ipv4_codec.md): IP4DEC and IP4ENC, each outcome of the body with its ERR; and for
every standalone command, that an error leaves the state but for ERR (R119, R138, R206). -/

namespace Sys2Proof.Machine

/-! ### IP4DEC (R111, R113) -/

theorem exec_ip4dec (s : State) : exec .ip4dec s = standalone ip4decBody s := rfl

theorem toNat_ihlOfByte (m : Memory) : ((m.read 0).extractLsb' 0 4).toNat = byteNat m 0 % 16 :=
  BitVec.extractLsb'_toNat 0 4 (m.read 0)

theorem headerBytes_ihlOfByte (m : Memory) : headerBytes ((m.read 0).extractLsb' 0 4) = headerLen m :=
  congrArg (· * 4) (toNat_ihlOfByte m)

/-- Settles O29: the three outcomes of the body, with the header length read as a number. -/
theorem ip4decLoadsTheTwelveFields : Obligations.Ip4decLoadsTheTwelveFields := by
  intro s
  rw [exec_ip4dec, ← toNat_ihlOfByte, ← headerBytes_ihlOfByte, ← ipFields_readBytes]
  exact ⟨fun h => standalone_error (ip4decBody_truncated h),
    fun h20 hihl => standalone_error (ip4decBody_invalid h20 hihl),
    fun h20 h5 hlen => standalone_ok (ip4decBody_eq h20 h5 hlen)⟩

/-! ### IP4ENC (R115, R116) -/

theorem exec_ip4enc (s : State) : exec .ip4enc s = standalone ip4encBody s := rfl

/-- Settles O30: the header image is written at offset 0 and is 20 bytes long, so it reads back and nothing from
offset 20 on is touched. -/
theorem ip4encWritesTheFixedHeader : Obligations.Ip4encWritesTheFixedHeader := by
  intro s
  rw [exec_ip4enc]
  refine ⟨fun hshort => standalone_error (ip4encBody_invalid hshort), fun hihl h20 =>
    ⟨s.tx.writeBytes 0 (ipImage s.ip), standalone_ok (ip4encBody_eq hihl h20), ?_, fun a ha => ?_⟩⟩
  · have hread : (s.tx.writeBytes 0 (ipImage s.ip)).readBytes 0 20 = ipImage s.ip :=
      Memory.readBytes_writeBytes_same s.tx 0 (ipImage s.ip)
    rw [hread, map_toNat_ipImage]
  · exact Memory.read_writeBytes_outside s.tx 0 (ipImage s.ip) (.inr (by rwa [length_ipImage]))

/-! ### A command that fails (R119, R138, R206) -/

/-- Success leaves ERR 0, so an ERR other than 0 comes from `raiseError` on the state before the command. -/
theorem standalone_failing {body : Body} {s t : State} (h : standalone body s = .next t) (he : t.err ≠ 0) :
    t = { s with err := t.err } := by
  rcases standalone_cases body s with ⟨u, -, hok⟩ | ⟨e, -, herr⟩
  · rw [hok] at h
    cases h
    exact absurd (withErr_err u okCode) he
  · rw [herr] at h
    cases h
    rfl

/-- Every command but ECHO and SRST is its body followed by ERR. -/
theorem exec_eq_standalone {i : Instr} (hecho : i ≠ .echo) (hsrst : i ≠ .srst) :
    ∃ body : Body, ∀ s, exec i s = standalone body s := by
  cases i with
  | csum => exact ⟨csumBody, fun _ => rfl⟩
  | ip4dec => exact ⟨ip4decBody, fun _ => rfl⟩
  | ip4enc => exact ⟨ip4encBody, fun _ => rfl⟩
  | udpdec => exact ⟨udpdecBody, fun _ => rfl⟩
  | udpenc => exact ⟨udpencBody, fun _ => rfl⟩
  | slice => exact ⟨sliceBody, fun _ => rfl⟩
  | xform => exact ⟨xformBody, fun _ => rfl⟩
  | optcpy => exact ⟨optcpyBody, fun _ => rfl⟩
  | echo => exact absurd rfl hecho
  | srst => exact absurd rfl hsrst

/-- Settles O47: SRST leaves ERR 0, and every other command but ECHO is standalone. -/
theorem failingCommandWritesOnlyErr : Obligations.FailingCommandWritesOnlyErr := by
  intro i s t hecho h he
  by_cases hsrst : i = .srst
  · subst hsrst
    cases h
    exact absurd (zeroControl_err s) he
  · obtain ⟨body, hbody⟩ := exec_eq_standalone hecho hsrst
    exact standalone_failing ((hbody s).symm.trans h) he

end Sys2Proof.Machine

/-! PROOF. The UDP Header Codec (42_udp_codec.md): UDPDEC and UDPENC, each outcome of the body with its ERR, and the
round trip of R137. UDPENC writes one byte sequence, the datagram, and after UDPDEC the datagram is the slice. -/

namespace Sys2Proof.Machine

/-! ### Ranges written and copied -/

theorem Memory.writeBytes_append (m : Memory) (off : Nat) (bs cs : List Byte) :
    m.writeBytes off (bs ++ cs) = (m.writeBytes off bs).writeBytes (off + bs.length) cs := by
  induction bs generalizing m off with
  | nil => rfl
  | cons b bs ih =>
    rw [List.cons_append, List.length_cons, Nat.add_comm bs.length, ← Nat.add_assoc]
    exact ih (m.write off b) (off + 1)

theorem Memory.readBytes_copyFrom_same (d src : Memory) (doff soff n : Nat) :
    (d.copyFrom doff src soff n).readBytes doff n = src.readBytes soff n :=
  Memory.readBytes_congr fun _ hi => Memory.read_copyFrom_inside d src doff soff n hi

/-! ### UDPDEC (R131) -/

theorem exec_udpdec (s : State) : exec .udpdec s = standalone udpdecBody s := rfl

/-- Settles O32: the two outcomes of the body; the payload is one copy to offset 0, so it decides every byte of
PAYBUF. -/
theorem udpdecCopiesTheSlice : Obligations.UdpdecCopiesTheSlice := by
  intro s
  rw [exec_udpdec, ← udpFields_readBytes]
  refine ⟨fun herr => standalone_error (udpdecBody_truncated herr), fun hfit h8 =>
    ⟨_, standalone_ok (udpdecBody_eq hfit h8), fun k hk => ?_, fun a ha => ?_⟩⟩
  · have hcopied := Memory.read_copyFrom_inside s.pay s.rx 0 (s.slOff.toNat + 8) (s.slLen.toNat - 8) hk
    rwa [Nat.zero_add] at hcopied
  · exact Memory.read_copyFrom_outside _ _ _ _ _ (.inr (by rwa [Nat.zero_add]))

/-! ### UDPENC (R135) -/

/-- The bytes UDPENC writes at SL_OFF: the header image, then the payload (R135). -/
def datagram (s : State) : List Byte := udpImage s.udp ++ payload s

theorem length_datagram (s : State) : (datagram s).length = 8 + s.paylen.toNat := by
  rw [datagram, List.length_append, length_udpImage, payload, Memory.length_readBytes]

theorem exec_udpenc (s : State) : exec .udpenc s = standalone udpencBody s := rfl

theorem exec_udpenc_invalid {s : State}
    (h : s.udp.len.toNat ≠ 8 + s.paylen.toNat ∨ Config.bufMax < s.slOff.toNat + s.udp.len.toNat) :
    exec .udpenc s = .next { s with err := 3 } :=
  standalone_error (udpencBody_invalid h)

/-- The header and the payload are adjacent, so the two writes of UDPENC are the one of the datagram. -/
theorem exec_udpenc_ok {s : State} (h : s.udp.len.toNat = 8 + s.paylen.toNat)
    (h' : s.slOff.toNat + s.udp.len.toNat ≤ Config.bufMax) :
    exec .udpenc s = .next { s with
      tx := s.tx.writeBytes s.slOff.toNat (datagram s)
      txlen := BitVec.ofNat 16 (s.slOff.toNat + s.udp.len.toNat), err := 0 } := by
  rw [exec_udpenc, standalone_ok (udpencBody_eq h h'), datagram, Memory.writeBytes_append]; rfl

/-- The datagram just written reads back at the offset it was written to. -/
theorem readBytes_writeBytes_datagram (m : Memory) (off : Nat) (s : State) :
    (m.writeBytes off (datagram s)).readBytes off (8 + s.paylen.toNat) = datagram s := by
  rw [← length_datagram, Memory.readBytes_writeBytes_same]

/-- Settles O33: the datagram reads back, its first eight bytes are the header and the others the payload. -/
theorem udpencWritesHeaderAndPayload : Obligations.UdpencWritesHeaderAndPayload := by
  intro s
  refine ⟨exec_udpenc_invalid, fun hlen hmax => ⟨_, exec_udpenc_ok hlen hmax, ?_⟩⟩
  have hread := readBytes_writeBytes_datagram s.tx s.slOff.toNat s
  rw [Memory.readBytes_append, datagram] at hread
  obtain ⟨hhead, hpay⟩ := List.append_inj hread (Memory.length_readBytes _ _ _)
  refine ⟨?_, fun k hk => ?_, fun a ha => ?_⟩
  · rw [datagram, hhead, map_toNat_udpImage]
  · have hbyte := Memory.read_of_readBytes_eq hpay hk
    rwa [Nat.zero_add] at hbyte
  · exact Memory.read_writeBytes_outside _ _ _ (by rwa [length_datagram, ← hlen])

/-! ### UDPDEC then UDPENC (R137) -/

/-- A standalone command that leaves ERR 0 did not raise: no error has code 0. -/
theorem standalone_succeeding {body : Body} {s t : State} (h : standalone body s = .next t) (he : t.err = 0) :
    ∃ u, body s = .ok u ∧ t = u.withErr okCode := by
  rcases standalone_cases body s with ⟨u, hu, hok⟩ | ⟨e, -, herr⟩
  · rw [hok] at h
    cases h
    exact ⟨u, hu, rfl⟩
  · rw [herr] at h
    cases h
    exact absurd he (code_ne_ok e)

theorem toNat_paylen_of_udpdecBody_ok {s t : State} (h : udpdecBody s = .ok t) :
    8 + t.paylen.toNat = s.slLen.toNat := by
  obtain ⟨-, h8, rfl⟩ := udpdecBody_ok h
  have := s.slLen.isLt
  rw [BitVec.toNat_ofNat]
  omega

/-- The four fields and the payload that UDPDEC decodes are together the slice it decodes them from. -/
theorem datagram_of_udpdecBody_ok {s t : State} (h : udpdecBody s = .ok t) :
    datagram t = s.rx.readBytes s.slOff.toNat s.slLen.toNat := by
  have hlen := toNat_paylen_of_udpdecBody_ok h
  have hpaylen : t.paylen.toNat = s.slLen.toNat - 8 := by omega
  rw [← hlen, Memory.readBytes_append, datagram, payload, hpaylen]
  obtain ⟨-, -, rfl⟩ := udpdecBody_ok h
  rw [udpImage_udpFields (Memory.length_readBytes _ _ _), Memory.readBytes_copyFrom_same]

/-- UDPDEC writes neither register of the slice, and the slice lies inside RXBUF (R131). -/
theorem slice_of_udpdecBody_ok {s t : State} (h : udpdecBody s = .ok t) :
    t.slOff = s.slOff ∧ t.slLen = s.slLen ∧ s.slOff.toNat + s.slLen.toNat ≤ Config.bufMax := by
  obtain ⟨hfit, -, rfl⟩ := udpdecBody_ok h
  exact ⟨rfl, rfl, Nat.le_trans hfit (Nat.le_of_lt_succ s.rxlen.isLt)⟩

/-- Settles O34: UDPENC after UDPDEC tests UDP_LEN against SL_LEN, and the datagram it writes is the slice. -/
theorem udpDecodeEncodeRoundTrip : Obligations.UdpDecodeEncodeRoundTrip := by
  intro s t h he
  obtain ⟨u, hu, rfl⟩ := standalone_succeeding h he
  obtain ⟨hoff, hslLen, hmax⟩ := slice_of_udpdecBody_ok hu
  have hpaylen : 8 + u.paylen.toNat = u.slLen.toNat := hslLen ▸ toNat_paylen_of_udpdecBody_ok hu
  have hslice : datagram u = s.rx.readBytes u.slOff.toNat u.slLen.toNat :=
    hoff ▸ hslLen ▸ datagram_of_udpdecBody_ok hu
  rw [← hoff, ← hslLen] at hmax ⊢
  refine ⟨fun hlen => ?_, fun hne => exec_udpenc_invalid (.inl fun heq => ?_)⟩
  · have hlenNat : u.udp.len.toNat = u.slLen.toNat := congrArg BitVec.toNat hlen
    refine ⟨_, exec_udpenc_ok (hlenNat.trans hpaylen.symm) (hlenNat ▸ hmax), rfl, ?_, ?_⟩
    · rw [← hslice, ← hpaylen]
      exact readBytes_writeBytes_datagram u.tx u.slOff.toNat u
    · rw [withErr_slOff, withErr_udp, hlenNat, BitVec.toNat_ofNat, Nat.mod_eq_of_lt (Nat.lt_succ_of_le hmax)]
  · exact hne (BitVec.eq_of_toNat_eq (heq.trans hpaylen))

end Sys2Proof.Machine

/-! PROOF. The Echo Transform's own commands (43_echo_pipeline.md): SLICE and OPTCPY, each outcome of the body with its
ERR; the words of the header checksum in numbers (R161); XFORM as a record of numbers, and applied twice (R160, R165). -/

namespace Sys2Proof.Machine

/-! ### SLICE (R152) -/

theorem exec_slice (s : State) : exec .slice s = standalone sliceBody s := rfl

/-- Settles O35: the two outcomes of the body. -/
theorem sliceDelimitsThePayload : Obligations.SliceDelimitsThePayload := by
  intro s
  rw [exec_slice]
  exact ⟨fun herr => standalone_error (sliceBody_invalid herr),
    fun hihl hlen => standalone_ok (sliceBody_eq hihl hlen)⟩

/-! ### OPTCPY (R158) -/

theorem exec_optcpy (s : State) : exec .optcpy s = standalone optcpyBody s := rfl

/-- A copy between equal offsets gives the source's bytes on its range and keeps the others. -/
theorem Memory.read_copyFrom_self_offset (d src : Memory) (off n a : Nat) :
    (d.copyFrom off src off n).read a = if off ≤ a ∧ a < off + n then src.read a else d.read a := by
  split
  next hin =>
    have hcopied := Memory.read_copyFrom_inside d src off off n (i := a - off) (by omega)
    rwa [Nat.add_sub_cancel' hin.1] at hcopied
  next hout => exact Memory.read_copyFrom_outside d src off off n (by omega)

/-- Settles O36: the bytes from 20 to SL_OFF are one copy between equal offsets, empty when SL_OFF is at most 20. -/
theorem optcpyCarriesTheOptionBytes : Obligations.OptcpyCarriesTheOptionBytes := by
  intro s
  rw [exec_optcpy]
  refine ⟨fun herr => standalone_error (optcpyBody_truncated herr), fun hfit =>
    ⟨s.tx.copyFrom 20 s.rx 20 (s.slOff.toNat - 20), standalone_ok (optcpyBody_eq hfit), fun a => ?_⟩⟩
  have hrange : 20 ≤ a ∧ a < 20 + (s.slOff.toNat - 20) ↔ 20 ≤ a ∧ a < s.slOff.toNat := by omega
  simp only [Memory.read_copyFrom_self_offset, hrange]

/-! ### The checksum inputs in numbers (R161, R162) -/

theorem map_toNat_ipWords (f : IpFields) : (ipWords f).map BitVec.toNat = ipWordsNat f := by
  have hfirst : (wordOf (f.ver ++ f.ihl) f.tos).toNat = f.ver.toNat * 4096 + f.ihl.toNat * 256 + f.tos.toNat := by
    rw [toNat_wordOf, toNat_append_eq]; omega
  simp only [ipWords, ipWordsNat, List.map_cons, List.map_nil, hfirst, toNat_wordOf, toNat_append_eq, toNat_hiWord,
    toNat_loWord, BitVec.toNat_ofNat, Nat.reducePow, Nat.reduceMod]

theorem ipWords_eq_wordsOfBytes (f : IpFields) : ipWords f = wordsOfBytes (ipImage { f with csum := 0 }) := by
  have hpair : ∀ (b c : Byte) (bs : List Byte), wordsOfBytes (b :: c :: bs) = wordOf b c :: wordsOfBytes bs :=
    fun _ _ _ => rfl
  have hlast : wordsOfBytes (addrBytes f.dst) = [hiWord f.dst, loWord f.dst] := by
    rw [← List.append_nil (addrBytes f.dst), wordsOfBytes_addrBytes_append]; rfl
  simp only [ipWords, ipImage, List.append_assoc, List.cons_append, List.nil_append, hpair,
    wordsOfBytes_wordBytes_append, wordsOfBytes_addrBytes_append, hlast]
  rfl

/-- Settles O26: the words as numbers, and as the words of the image, each a lemma above. -/
theorem ipChecksumInputIsTheTenWords : Obligations.IpChecksumInputIsTheTenWords := fun f =>
  ⟨map_toNat_ipWords f, ipWords_eq_wordsOfBytes f⟩

theorem wordSum_ipWords (f : IpFields) : wordSum (ipWords f) = (ipWordsNat f).sum := by
  rw [wordSum, map_toNat_ipWords]

theorem wordSum_udpWords (f : IpFields) (u : UdpFields) (bs : List Byte) :
    wordSum (udpWords f u bs) = (udpHeadWordsNat f u).sum + wordSum (wordsOfBytes bs) := by
  rw [wordSum, udpChecksumInputIsPseudoHeaderHeaderPayload, List.sum_append, wordSum]

theorem checksum_ipWords (f : IpFields) :
    checksum (ipWords f) = BitVec.ofNat 16 (onesComplement (ipWordsNat f).sum) := by
  rw [checksum_eq_ofNat (by simp [ipWords]), wordSum_ipWords]

theorem checksum_udpWords_payload (f : IpFields) (u : UdpFields) (s : State) :
    checksum (udpWords f u (payload s)) = BitVec.ofNat 16 (onesComplement
      ((udpHeadWordsNat f u).sum + wordSum (wordsOfBytes (payload s)))) := by
  rw [checksum_eq_ofNat (length_udpWords_payload_le f u s), wordSum_udpWords]

theorem onesComplement_lt (n : Nat) : onesComplement n < 2 ^ 16 := by
  unfold onesComplement; omega

theorem substituteZero_ofNat (subst : Bool) {n : Nat} (h : n < 2 ^ 16) :
    substituteZero subst (BitVec.ofNat 16 n) = BitVec.ofNat 16 (afterSubstitution subst n) := by
  have hzero : BitVec.ofNat 16 n = 0 ↔ n = 0 := by
    rw [← BitVec.toNat_inj, BitVec.toNat_ofNat, Nat.mod_eq_of_lt h]; rfl
  simp only [substituteZero, afterSubstitution, Bool.and_eq_true, decide_eq_true_eq, hzero]
  split <;> rfl

/-! ### XFORM (R160, R163) -/

/-- Settles O37: both checksums are the complement of a sum over the swapped registers, and every other field is
stored as XFORM names it. -/
theorem xformSwapsAndRecomputes : Obligations.XformSwapsAndRecomputes := by
  intro s
  rw [exec_xform, ← substituteZero_ofNat _ (onesComplement_lt _), ← checksum_ipWords, ← checksum_udpWords_payload]
  rfl

/-! ### XFORM twice (R165) -/

/-- The second swap undoes the first, and no swap changes the header sum. -/
theorem xformIp_xformIp (f : IpFields) : xformIp (xformIp f) = { f with csum := (xformIp f).csum } := by
  have hcsum : (xformIp (xformIp f)).csum = (xformIp f).csum := by
    rw [xformIp_csum, xformIp_csum]
    exact checksum_eq_of_wordSum_eq (by simp [ipWords]) (by simp [ipWords]) (wordSum_ipWords_swap f _)
  rw [← hcsum]; rfl

theorem xformWith_udp_csum_twice (subst : Bool) (s : State) :
    (xformWith subst (xformWith subst s)).udp.csum = (xformWith subst s).udp.csum := by
  have hsum : wordSum (udpWords (xformWith subst s).ip (xformWith subst s).udp (payload s)) =
      wordSum (udpWords s.ip s.udp (payload s)) := wordSum_udpWords_swap s.ip s.udp (payload s) _ _
  calc (xformWith subst (xformWith subst s)).udp.csum
      = substituteZero subst (checksum (udpWords (xformWith subst s).ip (xformWith subst s).udp (payload s))) :=
        xformUdp_csum subst (xformWith subst s)
    _ = substituteZero subst (checksum (udpWords s.ip s.udp (payload s))) := by
        rw [checksum_eq_of_wordSum_eq (length_udpWords_payload_le _ _ s) (length_udpWords_payload_le _ _ s) hsum]
    _ = (xformWith subst s).udp.csum := (xformUdp_csum subst s).symm

/-- Settles O39: the endpoints are swapped back, and the two checksums are those of sums the swap leaves alone. -/
theorem xformTwiceRestoresTheEndpoints : Obligations.XformTwiceRestoresTheEndpoints := by
  intro s
  refine ⟨_, _, exec_xform s, exec_xform _, xformIp_xformIp s.ip, ?_, rfl⟩
  have hcsum := xformWith_udp_csum_twice Config.udpZeroSubst s
  simp only [withErr_udp]
  rw [← hcsum]; rfl

end Sys2Proof.Machine

/-! PROOF. ECHO and its seven commands issued one after another (43_echo_pipeline.md R170, R173): both end as one run of
the seven stages does, by an induction over the commands and their stages. -/

namespace Sys2Proof.Machine

/-! ### Commands and stages -/

/-- What a run of stages ends in as a command: ERR tells how it ended (R170). -/
def endWithErr : State × Option CoreError → State
  | (t, none) => t.withErr okCode
  | (t, some e) => t.withErr e.code

/-- A command that is a stage and then ERR, the stage neither reading ERR nor writing it. -/
abbrev RunsStage (i : Instr) (body : Body) : Prop := (∀ s, exec i s = standalone body s) ∧ body.IgnoresErr

theorem echoCommands_runStages : List.Forall₂ RunsStage echoCommands echoStages :=
  .cons ⟨exec_ip4dec, ip4decBody_ignoresErr⟩ <| .cons ⟨exec_slice, sliceBody_ignoresErr⟩ <|
  .cons ⟨exec_udpdec, udpdecBody_ignoresErr⟩ <| .cons ⟨fun _ => rfl, xformBody_ignoresErr⟩ <|
  .cons ⟨exec_ip4enc, ip4encBody_ignoresErr⟩ <| .cons ⟨exec_optcpy, optcpyBody_ignoresErr⟩ <|
  .cons ⟨exec_udpenc, udpencBody_ignoresErr⟩ .nil

theorem standalone_withErr {body : Body} (h : body.IgnoresErr) (s : State) (c : BitVec 3) :
    standalone body (s.withErr c) = standalone body s := by
  rcases standalone_cases body s with ⟨t, ht, hok⟩ | ⟨e, he, herr⟩
  · have : body (s.withErr c) = .ok (t.withErr c) := by rw [h, ht]; rfl
    rw [hok, standalone_ok this, withErr_withErr]
  · have : body (s.withErr c) = .error e := by rw [h, he]; rfl
    rw [herr, standalone_error this, withErr_withErr]

/-- Commands that each run a stage, issued up to the first error from ERR 0, end as the run of the stages does. -/
theorem runCommands_eq_runStages {is : List Instr} {stages : List Body} (h : List.Forall₂ RunsStage is stages)
    (s : State) : runCommands is (s.withErr okCode) = .next (endWithErr (runStages stages s)) := by
  induction h generalizing s with
  | nil => rfl
  | @cons i body is stages hi hrest ih =>
    obtain ⟨hexec, hignores⟩ := hi
    have hi : exec i (s.withErr okCode) = standalone body s := by rw [hexec, standalone_withErr hignores]
    rcases standalone_cases body s with ⟨t, ht, hok⟩ | ⟨e, he, herr⟩
    · rw [runCommands_cons is (hi.trans hok), runStages_cons_ok ht, if_pos (withErr_err t okCode), ih]
    · rw [runCommands_cons is (hi.trans herr), runStages_cons_error he, withErr_err, if_neg (code_ne_ok e)]; rfl

/-- The first command does not read ERR, so the sequence starts from any ERR. -/
theorem runCommands_echoCommands (s : State) :
    runCommands echoCommands s = .next (endWithErr (runStages echoStages s)) := by
  have hfirst : exec .ip4dec (s.withErr okCode) = exec .ip4dec s := standalone_withErr ip4decBody_ignoresErr s okCode
  rw [← runCommands_eq_runStages echoCommands_runStages s]
  simp only [echoCommands, runCommands, hostEvent_commandLine, hfirst]

/-! ### ECHO (R171, R173) -/

theorem exec_echo (s : State) : exec .echo s = execEcho s := rfl

/-- Settles O42: both end as the run of the seven stages, and ECHO sets TXLEN to 0 when a stage raised. -/
theorem echoEqualsItsCommandSequence : Obligations.EchoEqualsItsCommandSequence := by
  intro s
  rw [exec_echo, runCommands_echoCommands]
  rcases execEcho_cases s with ⟨t, ht, hecho⟩ | ⟨t, e, ht, hecho⟩
  · exact ⟨_, _, hecho, rfl, by rw [ht]; rfl, fun _ => by rw [ht]; rfl, fun hne => absurd rfl hne⟩
  · exact ⟨_, _, hecho, rfl, by rw [ht]; rfl, fun hok => absurd hok (code_ne_ok e), fun _ => by rw [ht]; rfl⟩

end Sys2Proof.Machine

/-! PROOF. ECHO (43_echo_pipeline.md R170): each of its stages succeeds under its tests alone, so the seven stages
succeed exactly on the frames of the last row of R203, and the state they leave is one record, `echoed`. -/

namespace Sys2Proof.Machine

/-! ### The received header in numbers -/

theorem toNat_ipFieldsOf_tlen (m : Memory) : (ipFieldsOf m).tlen.toNat = field16 m 2 :=
  Nat.mod_eq_of_lt (field16_lt m 2)

theorem headerBytes_ipFieldsOf (m : Memory) : headerBytes (ipFieldsOf m).ihl = headerLen m := by
  simp only [headerBytes, ipFieldsOf, headerLen, BitVec.toNat_ofNat, Nat.reducePow, Nat.mod_mod]

theorem toNat_ofNat_headerLen (m : Memory) : (BitVec.ofNat 16 (headerLen m)).toNat = headerLen m := by
  rw [BitVec.toNat_ofNat, headerLen]; omega

theorem toNat_ofNat_field16_sub (m : Memory) (a k : Nat) :
    (BitVec.ofNat 16 (field16 m a - k)).toNat = field16 m a - k := by
  have := field16_lt m a
  rw [BitVec.toNat_ofNat]; omega

theorem toNat_udpFieldsOf_len (m : Memory) (a : Nat) : (udpFieldsOf m a).len.toNat = field16 m (a + 4) :=
  Nat.mod_eq_of_lt (field16_lt m (a + 4))

/-! ### Runs of stages that raise nothing -/

theorem runStages_cons_eq_none_iff {body : Body} {rest : List Body} {s t : State} :
    runStages (body :: rest) s = (t, none) ↔ ∃ u, body s = .ok u ∧ runStages rest u = (t, none) := by
  cases h : body s with
  | ok u => simp [runStages_cons_ok h]
  | error e => simp [runStages_cons_error h]

theorem runStages_nil_eq_none_iff {s t : State} : runStages [] s = (t, none) ↔ s = t := by
  simp [runStages]

theorem runStages_append_eq_none_iff {first rest : List Body} {s t : State} :
    runStages (first ++ rest) s = (t, none) ↔
      ∃ u, runStages first s = (u, none) ∧ runStages rest u = (t, none) := by
  induction first generalizing s with
  | nil => simp [runStages_nil_eq_none_iff]
  | cons body first ih =>
    rw [List.cons_append]
    simp only [runStages_cons_eq_none_iff, ih]
    exact ⟨fun ⟨u, hu, v, hv, ht⟩ => ⟨v, ⟨u, hu, hv⟩, ht⟩, fun ⟨v, ⟨u, hu, hv⟩, ht⟩ => ⟨u, hu, v, hv, ht⟩⟩

/-! ### Each stage of ECHO succeeds under its tests, and then gives one state -/

theorem ip4decBody_eq_ok_iff {s t : State} : ip4decBody s = .ok t ↔
    20 ≤ s.rxlen.toNat ∧ 5 ≤ byteNat s.rx 0 % 16 ∧ headerLen s.rx ≤ s.rxlen.toNat ∧
      t = { s with ip := ipFieldsOf s.rx } := by
  rw [← toNat_ihlOfByte, ← headerBytes_ihlOfByte, ← ipFields_readBytes]
  refine ⟨ip4decBody_ok, ?_⟩
  rintro ⟨h20, h5, hlen, rfl⟩
  exact ip4decBody_eq h20 h5 hlen

theorem sliceBody_eq_ok_iff {s t : State} : sliceBody s = .ok t ↔
    headerBytes s.ip.ihl ≤ s.ip.tlen.toNat ∧ s.ip.tlen.toNat ≤ s.rxlen.toNat ∧
      t = { s with
        slOff := BitVec.ofNat 16 (headerBytes s.ip.ihl)
        slLen := BitVec.ofNat 16 (s.ip.tlen.toNat - headerBytes s.ip.ihl) } := by
  refine ⟨sliceBody_ok, ?_⟩
  rintro ⟨hihl, hlen, rfl⟩
  exact sliceBody_eq hihl hlen

theorem udpdecBody_eq_ok_iff {s t : State} : udpdecBody s = .ok t ↔
    s.slOff.toNat + s.slLen.toNat ≤ s.rxlen.toNat ∧ 8 ≤ s.slLen.toNat ∧
      t = { s with
        udp := udpFieldsOf s.rx s.slOff.toNat
        pay := s.pay.copyFrom 0 s.rx (s.slOff.toNat + 8) (s.slLen.toNat - 8)
        paylen := BitVec.ofNat 16 (s.slLen.toNat - 8) } := by
  rw [← udpFields_readBytes]
  refine ⟨udpdecBody_ok, ?_⟩
  rintro ⟨hfit, h8, rfl⟩
  exact udpdecBody_eq hfit h8

theorem xformBody_eq_ok_iff {s t : State} : xformBody s = .ok t ↔ t = xformWith Config.udpZeroSubst s :=
  ⟨xformBody_ok, fun h => h ▸ xformBody_eq s⟩

theorem ip4encBody_eq_ok_iff {s t : State} : ip4encBody s = .ok t ↔
    headerBytes s.ip.ihl ≤ s.ip.tlen.toNat ∧ 20 ≤ s.ip.tlen.toNat ∧
      t = { s with tx := s.tx.writeBytes 0 (ipImage s.ip), txlen := s.ip.tlen } := by
  refine ⟨ip4encBody_ok, ?_⟩
  rintro ⟨hihl, h20, rfl⟩
  exact ip4encBody_eq hihl h20

theorem optcpyBody_eq_ok_iff {s t : State} : optcpyBody s = .ok t ↔
    s.slOff.toNat ≤ s.rxlen.toNat ∧ t = { s with tx := s.tx.copyFrom 20 s.rx 20 (s.slOff.toNat - 20) } := by
  refine ⟨optcpyBody_ok, ?_⟩
  rintro ⟨hfit, rfl⟩
  exact optcpyBody_eq hfit

/-- The header and the payload are adjacent, so UDPENC writes one datagram. -/
theorem udpencBody_eq_ok_iff {s t : State} : udpencBody s = .ok t ↔
    s.udp.len.toNat = 8 + s.paylen.toNat ∧ s.slOff.toNat + s.udp.len.toNat ≤ Config.bufMax ∧
      t = { s with
        tx := s.tx.writeBytes s.slOff.toNat (datagram s)
        txlen := BitVec.ofNat 16 (s.slOff.toNat + s.udp.len.toNat) } := by
  rw [datagram, Memory.writeBytes_append]
  refine ⟨udpencBody_ok, ?_⟩
  rintro ⟨hlen, hmax, rfl⟩
  exact udpencBody_eq hlen hmax

/-! ### The state a successful ECHO leaves -/

/-- What stages 1 to 3 leave: the decoded fields, the slice and the payload of the received frame. -/
def echoDecoded (s : State) : State :=
  { s with
    ip := ipFieldsOf s.rx
    slOff := BitVec.ofNat 16 (headerLen s.rx)
    slLen := BitVec.ofNat 16 (field16 s.rx 2 - headerLen s.rx)
    udp := udpFieldsOf s.rx (headerLen s.rx)
    pay := s.pay.copyFrom 0 s.rx (headerLen s.rx + 8) (field16 s.rx 2 - headerLen s.rx - 8)
    paylen := BitVec.ofNat 16 (field16 s.rx 2 - headerLen s.rx - 8) }

/-- What stages 1 to 4 leave. -/
def echoTransformed (s : State) : State := xformWith Config.udpZeroSubst (echoDecoded s)

/-- The frame stages 5 to 7 put together in TXBUF: the 20 header bytes, the option bytes, the datagram (R158). -/
def frameOf (tx rx : Memory) (f : IpFields) (h : Nat) (bs : List Byte) : Memory :=
  ((tx.writeBytes 0 (ipImage f)).copyFrom 20 rx 20 (h - 20)).writeBytes h bs

/-- What the seven stages leave when none raises. -/
def echoed (s : State) : State :=
  let x := echoTransformed s
  { x with
    tx := frameOf s.tx s.rx x.ip (headerLen s.rx) (datagram x)
    txlen := BitVec.ofNat 16 (field16 s.rx 2) }

/-- The frames that pass stages 1 to 3: rows 1 to 6 of the table of R203 do not apply. -/
abbrev DecodersAccept (s : State) : Prop :=
  20 ≤ s.rxlen.toNat ∧ 5 ≤ byteNat s.rx 0 % 16 ∧ headerLen s.rx ≤ s.rxlen.toNat ∧
    headerLen s.rx + 8 ≤ field16 s.rx 2 ∧ field16 s.rx 2 ≤ s.rxlen.toNat

theorem runDecoders_eq_none_iff {s t : State} :
    runStages [ip4decBody, sliceBody, udpdecBody, xformBody] s = (t, none) ↔
      DecodersAccept s ∧ t = echoTransformed s := by
  simp only [runStages_cons_eq_none_iff, runStages_nil_eq_none_iff, ip4decBody_eq_ok_iff, sliceBody_eq_ok_iff,
    udpdecBody_eq_ok_iff, xformBody_eq_ok_iff, and_assoc, exists_and_left, exists_eq_left, headerBytes_ipFieldsOf,
    toNat_ipFieldsOf_tlen, toNat_ofNat_headerLen, toNat_ofNat_field16_sub]
  constructor
  · rintro ⟨h20, h5, hhead, -, hlen, -, h8, rfl⟩
    exact ⟨h20, h5, hhead, by omega, hlen, rfl⟩
  · rintro ⟨h20, h5, hhead, h8, hlen, rfl⟩
    exact ⟨h20, h5, hhead, by omega, hlen, by omega, by omega, rfl⟩

theorem headerBytes_echoTransformed (s : State) : headerBytes (echoTransformed s).ip.ihl = headerLen s.rx :=
  headerBytes_ipFieldsOf s.rx

theorem toNat_tlen_echoTransformed (s : State) : (echoTransformed s).ip.tlen.toNat = field16 s.rx 2 :=
  toNat_ipFieldsOf_tlen s.rx

theorem toNat_udpLen_echoTransformed (s : State) :
    (echoTransformed s).udp.len.toNat = field16 s.rx (headerLen s.rx + 4) :=
  toNat_udpFieldsOf_len s.rx (headerLen s.rx)

theorem toNat_slOff_echoTransformed (s : State) : (echoTransformed s).slOff.toNat = headerLen s.rx :=
  toNat_ofNat_headerLen s.rx

theorem toNat_paylen_echoTransformed (s : State) :
    (echoTransformed s).paylen.toNat = field16 s.rx 2 - headerLen s.rx - 8 := by
  rw [Nat.sub_sub]; exact toNat_ofNat_field16_sub s.rx 2 (headerLen s.rx + 8)

theorem rxlen_echoTransformed (s : State) : (echoTransformed s).rxlen = s.rxlen := by
  simp only [echoTransformed, xformWith, echoDecoded]

/-- After stages 1 to 4 only UDPENC can raise, and only on a UDP length other than the slice's (R203, row 7). -/
theorem runEncoders_eq_none_iff {s t : State} (h : DecodersAccept s) :
    runStages [ip4encBody, optcpyBody, udpencBody] (echoTransformed s) = (t, none) ↔
      field16 s.rx (headerLen s.rx + 4) = field16 s.rx 2 - headerLen s.rx ∧ t = echoed s := by
  obtain ⟨-, h5, hhead, h8, -⟩ := h
  have h20 : 20 ≤ headerLen s.rx := by rw [headerLen]; omega
  have hmax := field16_lt s.rx 2
  simp only [runStages_cons_eq_none_iff, runStages_nil_eq_none_iff, ip4encBody_eq_ok_iff, optcpyBody_eq_ok_iff,
    udpencBody_eq_ok_iff, and_assoc, exists_and_left, exists_eq_left, headerBytes_echoTransformed,
    toNat_tlen_echoTransformed, toNat_udpLen_echoTransformed, toNat_slOff_echoTransformed,
    toNat_paylen_echoTransformed, rxlen_echoTransformed]
  have hend : field16 s.rx (headerLen s.rx + 4) = field16 s.rx 2 - headerLen s.rx →
      headerLen s.rx + field16 s.rx (headerLen s.rx + 4) = field16 s.rx 2 := by omega
  constructor
  · rintro ⟨-, -, -, hlen, -, rfl⟩
    have hlen' : field16 s.rx (headerLen s.rx + 4) = field16 s.rx 2 - headerLen s.rx := by omega
    rw [hend hlen']
    exact ⟨hlen', rfl⟩
  · rintro ⟨hlen, rfl⟩
    rw [hend hlen]
    exact ⟨by omega, by omega, hhead, by omega, Nat.le_of_lt_succ hmax, rfl⟩

/-- ECHO succeeds exactly on the frames of the last row of R203, and there leaves `echoed`. -/
theorem runStages_echoStages_eq_none_iff {s t : State} :
    runStages echoStages s = (t, none) ↔ EchoAccepts s ∧ t = echoed s := by
  have hsplit : echoStages = [ip4decBody, sliceBody, udpdecBody, xformBody] ++ [ip4encBody, optcpyBody, udpencBody] :=
    rfl
  have haccept : EchoAccepts s ↔ DecodersAccept s ∧
      field16 s.rx (headerLen s.rx + 4) = field16 s.rx 2 - headerLen s.rx := by simp only [and_assoc]
  rw [hsplit, runStages_append_eq_none_iff, haccept]
  constructor
  · rintro ⟨u, hdec, henc⟩
    obtain ⟨hacc, rfl⟩ := runDecoders_eq_none_iff.1 hdec
    obtain ⟨hlen, rfl⟩ := (runEncoders_eq_none_iff hacc).1 henc
    exact ⟨⟨hacc, hlen⟩, rfl⟩
  · rintro ⟨⟨hacc, hlen⟩, rfl⟩
    exact ⟨_, runDecoders_eq_none_iff.2 ⟨hacc, rfl⟩, (runEncoders_eq_none_iff hacc).2 ⟨hlen, rfl⟩⟩

theorem exec_echo_of_accepts {s : State} (h : EchoAccepts s) : exec .echo s = .next ((echoed s).withErr okCode) := by
  rw [exec_echo, execEcho, runStages_echoStages_eq_none_iff.2 ⟨h, rfl⟩]; rfl

theorem exec_echo_err_eq_zero_iff {s t : State} (h : exec .echo s = .next t) : t.err = 0 ↔ EchoAccepts s := by
  rw [exec_echo] at h
  rcases execEcho_cases s with ⟨u, hu, hecho⟩ | ⟨u, e, hu, hecho⟩
  · rw [hecho] at h
    cases h
    exact iff_of_true rfl (runStages_echoStages_eq_none_iff.1 hu).1
  · rw [hecho] at h
    cases h
    refine iff_of_false (code_ne_ok e) fun hacc => ?_
    rw [runStages_echoStages_eq_none_iff.2 ⟨hacc, rfl⟩] at hu
    cases hu

end Sys2Proof.Machine

/-! PROOF. A frame in a buffer: where a header image stands in it, its fields stand at their offsets; the frame that
ECHO puts together in TXBUF; and the sums of the checksum words of a received frame, as sums of its fields. -/

namespace Sys2Proof.Machine

/-! ### A header in a buffer, field by field -/

/-- The ten header bytes before the checksum field (R71). -/
def ipHead (f : IpFields) : List Byte :=
  [(f.ver ++ f.ihl : BitVec 8), f.tos] ++ wordBytes f.tlen ++ wordBytes f.id ++ wordBytes (f.flags ++ f.frag)
    ++ [f.ttl, f.proto]

theorem ipImage_eq_append (f : IpFields) :
    ipImage f = ipHead f ++ (wordBytes f.csum ++ (addrBytes f.src ++ addrBytes f.dst)) := rfl

/-- Where the header image of `f` stands at the start of a buffer, its last three fields stand at 10, 12 and 16. -/
theorem parts_of_readBytes_eq_ipImage {m : Memory} {f : IpFields} (h : m.readBytes 0 20 = ipImage f) :
    m.readBytes 0 10 = ipHead f ∧ m.readBytes 10 2 = wordBytes f.csum ∧ m.readBytes 12 4 = addrBytes f.src ∧
      m.readBytes 16 4 = addrBytes f.dst := by
  rw [ipImage_eq_append, Memory.readBytes_append m 0 10 10, Memory.readBytes_append m (0 + 10) 2 8,
    Memory.readBytes_append m _ 4 4] at h
  obtain ⟨hhead, h⟩ := List.append_inj h (Memory.length_readBytes _ _ _)
  obtain ⟨hcsum, h⟩ := List.append_inj h (Memory.length_readBytes _ _ _)
  obtain ⟨hsrc, hdst⟩ := List.append_inj h (Memory.length_readBytes _ _ _)
  exact ⟨hhead, hcsum, hsrc, hdst⟩

theorem parts_of_readBytes_eq_udpImage {m : Memory} {a : Nat} {u : UdpFields} (h : m.readBytes a 8 = udpImage u) :
    m.readBytes a 2 = wordBytes u.sport ∧ m.readBytes (a + 2) 2 = wordBytes u.dport ∧
      m.readBytes (a + 4) 2 = wordBytes u.len ∧ m.readBytes (a + 6) 2 = wordBytes u.csum := by
  rw [udpImage, List.append_assoc, List.append_assoc, Memory.readBytes_append m a 2 6,
    Memory.readBytes_append m _ 2 4, Memory.readBytes_append m _ 2 2] at h
  obtain ⟨hsport, h⟩ := List.append_inj h (Memory.length_readBytes _ _ _)
  obtain ⟨hdport, h⟩ := List.append_inj h (Memory.length_readBytes _ _ _)
  obtain ⟨hlen, hcsum⟩ := List.append_inj h (Memory.length_readBytes _ _ _)
  exact ⟨hsport, hdport, hlen, hcsum⟩

theorem readBytes_eq_ipImage (m : Memory) : m.readBytes 0 20 = ipImage (ipFieldsOf m) := by
  rw [← ipFields_readBytes, ipImage_ipFields (Memory.length_readBytes _ _ _)]

theorem readBytes_eq_udpImage (m : Memory) (a : Nat) : m.readBytes a 8 = udpImage (udpFieldsOf m a) := by
  rw [← udpFields_readBytes, udpImage_udpFields (Memory.length_readBytes _ _ _)]

theorem ipFieldsOf_eq_of_readBytes {m : Memory} {f : IpFields} (h : m.readBytes 0 20 = ipImage f) :
    ipFieldsOf m = f := by
  rw [← ipFields_readBytes, h, ipFields_ipImage]

theorem udpFieldsOf_eq_of_readBytes {m : Memory} {a : Nat} {u : UdpFields} (h : m.readBytes a 8 = udpImage u) :
    udpFieldsOf m a = u := by
  rw [← udpFields_readBytes, h, udpFields_udpImage]

theorem field16_of_readBytes {m : Memory} {a : Nat} {w : Word} (h : m.readBytes a 2 = wordBytes w) :
    field16 m a = w.toNat := by
  have hbytes : [byteNat m a, byteNat m (a + 1)] = [w.toNat / 256, w.toNat % 256] := by
    rw [← natBytes16, ← map_toNat_wordBytes, ← h]; rfl
  simp only [List.cons.injEq, and_true] at hbytes
  rw [field16, hbytes.1, hbytes.2]; omega

/-! ### The frame in TXBUF -/

section
variable (tx rx : Memory) (f : IpFields) {h : Nat} (bs : List Byte)

theorem readBytes_frameOf_header (hh : 20 ≤ h) : (frameOf tx rx f h bs).readBytes 0 20 = ipImage f := by
  rw [frameOf, Memory.readBytes_writeBytes_disjoint _ _ _ (.inl hh), Memory.copyFrom,
    Memory.readBytes_writeBytes_disjoint _ _ _ (.inl (Nat.zero_add 20).le)]
  exact Memory.readBytes_writeBytes_same tx 0 (ipImage f)

theorem read_frameOf_options {a : Nat} (ha : 20 ≤ a) (hah : a < h) : (frameOf tx rx f h bs).read a = rx.read a := by
  rw [frameOf, Memory.read_writeBytes_outside _ _ _ (.inl hah), Memory.read_copyFrom_self_offset, if_pos (by omega)]

theorem readBytes_frameOf_datagram : (frameOf tx rx f h bs).readBytes h bs.length = bs :=
  Memory.readBytes_writeBytes_same _ h bs

theorem read_frameOf_beyond (hh : 20 ≤ h) {a : Nat} (ha : h + bs.length ≤ a) :
    (frameOf tx rx f h bs).read a = tx.read a := by
  rw [frameOf, Memory.read_writeBytes_outside _ _ _ (.inr ha), Memory.read_copyFrom_self_offset, if_neg (by omega),
    Memory.read_writeBytes_outside _ _ _ (.inr (by rw [length_ipImage]; omega))]

end

/-! ### The checksum inputs of a received frame -/

/-- The sum of the header words of a frame but for the checksum field (R161). -/
def headerSum (m : Memory) : Nat :=
  field16 m 0 + field16 m 2 + field16 m 4 + field16 m 6 + field16 m 8 + field16 m 12 + field16 m 14 + field16 m 16 +
    field16 m 18

/-- The sum of pseudo-header, UDP header but for the checksum field, and payload of a frame whose UDP datagram of `l`
bytes is at `h` (R162). -/
def datagramSum (m : Memory) (h l : Nat) : Nat :=
  field16 m 12 + field16 m 14 + field16 m 16 + field16 m 18 + 17 + l + field16 m h + field16 m (h + 2) + l +
    wordSum (wordsOfBytes (m.readBytes (h + 8) (l - 8)))

theorem byteNat_lt (m : Memory) (a : Nat) : byteNat m a < 256 := (m.read a).isLt

theorem toNat_ofNat_field16 (m : Memory) (a : Nat) : (BitVec.ofNat 16 (field16 m a)).toNat = field16 m a :=
  Nat.mod_eq_of_lt (field16_lt m a)

theorem toNat_ofNat_field32_div (m : Memory) (a : Nat) :
    (BitVec.ofNat 32 (field32 m a)).toNat / 65536 = field16 m a := by
  have := field16_lt m a
  have := field16_lt m (a + 2)
  rw [BitVec.toNat_ofNat, field32]; omega

theorem toNat_ofNat_field32_mod (m : Memory) (a : Nat) :
    (BitVec.ofNat 32 (field32 m a)).toNat % 65536 = field16 m (a + 2) := by
  have := field16_lt m (a + 2)
  rw [BitVec.toNat_ofNat, field32]; omega

/-- IP_VER, IP_IHL and IP_TOS together are the first word of the frame (R70). -/
theorem firstWord_ipFieldsOf (m : Memory) :
    (ipFieldsOf m).ver.toNat * 4096 + (ipFieldsOf m).ihl.toNat * 256 + (ipFieldsOf m).tos.toNat = field16 m 0 := by
  have := byteNat_lt m 0
  have := byteNat_lt m 1
  simp only [ipFieldsOf, field16, BitVec.toNat_ofNat, Nat.reduceAdd]; omega

theorem flagsWord_ipFieldsOf (m : Memory) :
    (ipFieldsOf m).flags.toNat * 8192 + (ipFieldsOf m).frag.toNat = field16 m 6 := by
  have := byteNat_lt m 6
  have := byteNat_lt m 7
  simp only [ipFieldsOf, field16, BitVec.toNat_ofNat, Nat.reduceAdd]; omega

theorem ttlWord_ipFieldsOf (m : Memory) :
    (ipFieldsOf m).ttl.toNat * 256 + (ipFieldsOf m).proto.toNat = field16 m 8 := by
  have := byteNat_lt m 8
  have := byteNat_lt m 9
  simp only [ipFieldsOf, field16, BitVec.toNat_ofNat, Nat.reduceAdd]; omega

theorem addressWords_ipFieldsOf (m : Memory) :
    (ipFieldsOf m).src.toNat / 65536 = field16 m 12 ∧ (ipFieldsOf m).src.toNat % 65536 = field16 m 14 ∧
      (ipFieldsOf m).dst.toNat / 65536 = field16 m 16 ∧ (ipFieldsOf m).dst.toNat % 65536 = field16 m 18 :=
  ⟨toNat_ofNat_field32_div m 12, toNat_ofNat_field32_mod m 12, toNat_ofNat_field32_div m 16,
    toNat_ofNat_field32_mod m 16⟩

theorem sum_ipWordsNat_ipFieldsOf (m : Memory) : (ipWordsNat (ipFieldsOf m)).sum = headerSum m := by
  have hid : (ipFieldsOf m).id.toNat = field16 m 4 := toNat_ofNat_field16 m 4
  simp only [ipWordsNat, firstWord_ipFieldsOf, flagsWord_ipFieldsOf, ttlWord_ipFieldsOf, addressWords_ipFieldsOf,
    toNat_ipFieldsOf_tlen, hid, List.sum_cons, List.sum_nil, headerSum]
  omega

theorem sum_udpHeadWordsNat_of_frame (m : Memory) (h : Nat) {l : Nat} (hl : field16 m (h + 4) = l) :
    (udpHeadWordsNat (ipFieldsOf m) (udpFieldsOf m h)).sum + wordSum (wordsOfBytes (m.readBytes (h + 8) (l - 8))) =
      datagramSum m h l := by
  have hsport : (udpFieldsOf m h).sport.toNat = field16 m h := toNat_ofNat_field16 m h
  have hdport : (udpFieldsOf m h).dport.toNat = field16 m (h + 2) := toNat_ofNat_field16 m (h + 2)
  simp only [udpHeadWordsNat, addressWords_ipFieldsOf, toNat_udpFieldsOf_len, hl, hsport, hdport, List.sum_cons,
    List.sum_nil, datagramSum]
  omega

end Sys2Proof.Machine

/-! PROOF. What a successful ECHO leaves (R172): the registers of `echoed` in numbers, and its frame byte by byte, the
relation `FrameEchoes`. -/

namespace Sys2Proof.Machine

/-! ### The transformed registers in numbers -/

/-- XFORM writes the last three header fields alone (R160). -/
theorem ipHead_xformIp (f : IpFields) : ipHead (xformIp f) = ipHead f := rfl

theorem payload_xformWith (subst : Bool) (s : State) : payload (xformWith subst s) = payload s := rfl

theorem afterSubstitution_lt (subst : Bool) {c : Nat} (h : c < 2 ^ 16) : afterSubstitution subst c < 2 ^ 16 := by
  unfold afterSubstitution
  split
  · decide
  · exact h

section
variable (s : State)

theorem ip_echoTransformed : (echoTransformed s).ip = xformIp (ipFieldsOf s.rx) := by
  simp only [echoTransformed, xformWith, echoDecoded]

theorem ports_echoTransformed :
    (echoTransformed s).udp.sport = (udpFieldsOf s.rx (headerLen s.rx)).dport ∧
      (echoTransformed s).udp.dport = (udpFieldsOf s.rx (headerLen s.rx)).sport ∧
      (echoTransformed s).udp.len = (udpFieldsOf s.rx (headerLen s.rx)).len :=
  ⟨rfl, rfl, rfl⟩

theorem toNat_ipCsum_echoTransformed : (echoTransformed s).ip.csum.toNat = onesComplement (headerSum s.rx) := by
  rw [ip_echoTransformed, xformIp_csum, checksum_ipWords, sum_ipWordsNat_ipFieldsOf, BitVec.toNat_ofNat,
    Nat.mod_eq_of_lt (onesComplement_lt _)]

theorem payload_echoTransformed : payload (echoTransformed s) =
    s.rx.readBytes (headerLen s.rx + 8) (field16 s.rx 2 - headerLen s.rx - 8) := by
  rw [payload, toNat_paylen_echoTransformed]
  exact Memory.readBytes_copyFrom_same s.pay s.rx 0 _ _

theorem udpCsum_echoTransformed : (echoTransformed s).udp.csum = substituteZero Config.udpZeroSubst
    (checksum (udpWords (ipFieldsOf s.rx) (udpFieldsOf s.rx (headerLen s.rx)) (payload (echoDecoded s)))) :=
  xformUdp_csum Config.udpZeroSubst (echoDecoded s)

theorem toNat_udpCsum_echoTransformed
    (hlen : field16 s.rx (headerLen s.rx + 4) = field16 s.rx 2 - headerLen s.rx) :
    (echoTransformed s).udp.csum.toNat = afterSubstitution Config.udpZeroSubst
      (onesComplement (datagramSum s.rx (headerLen s.rx) (field16 s.rx 2 - headerLen s.rx))) := by
  have hpayload : payload (echoDecoded s) = payload (echoTransformed s) := (payload_xformWith _ (echoDecoded s)).symm
  rw [udpCsum_echoTransformed, checksum_udpWords_payload, hpayload, payload_echoTransformed,
    sum_udpHeadWordsNat_of_frame s.rx _ hlen, substituteZero_ofNat _ (onesComplement_lt _), BitVec.toNat_ofNat,
    Nat.mod_eq_of_lt (afterSubstitution_lt _ (onesComplement_lt _))]

end

/-! ### The echoed frame (R172) -/

/-- The first `n` bytes of `m` are the echo of the first `n` of `src`, whose UDP datagram is at `h`: the endpoints are
swapped, the two checksum fields are new, and every other byte is the same. -/
structure FrameEchoes (m src : Memory) (h n : Nat) : Prop where
  start : ∀ a, a < 10 → m.read a = src.read a
  ipCsum : field16 m 10 = onesComplement (headerSum src)
  addresses : ∀ k, k < 4 → m.read (12 + k) = src.read (16 + k) ∧ m.read (16 + k) = src.read (12 + k)
  options : ∀ a, 20 ≤ a → a < h → m.read a = src.read a
  portsAndLen : ∀ k, k < 2 → m.read (h + k) = src.read (h + 2 + k) ∧ m.read (h + 2 + k) = src.read (h + k) ∧
    m.read (h + 4 + k) = src.read (h + 4 + k)
  udpCsum : field16 m (h + 6) =
    afterSubstitution Config.udpZeroSubst (onesComplement (datagramSum src h (n - h)))
  payload : ∀ a, h + 8 ≤ a → a < n → m.read a = src.read a

theorem twenty_le_headerLen {s : State} (h : EchoAccepts s) : 20 ≤ headerLen s.rx := by
  obtain ⟨-, h5, -⟩ := h
  rw [headerLen]; omega

theorem echoed_tx (s : State) : (echoed s).tx =
    frameOf s.tx s.rx (echoTransformed s).ip (headerLen s.rx) (datagram (echoTransformed s)) := by
  simp only [echoed]

theorem readBytes_echoed_header {s : State} (h : EchoAccepts s) :
    (echoed s).tx.readBytes 0 20 = ipImage (echoTransformed s).ip :=
  echoed_tx s ▸ readBytes_frameOf_header _ _ _ _ (twenty_le_headerLen h)

theorem readBytes_echoed_datagram (s : State) :
    (echoed s).tx.readBytes (headerLen s.rx) 8 = udpImage (echoTransformed s).udp ∧
      (echoed s).tx.readBytes (headerLen s.rx + 8) (field16 s.rx 2 - headerLen s.rx - 8) =
        s.rx.readBytes (headerLen s.rx + 8) (field16 s.rx 2 - headerLen s.rx - 8) := by
  have hread := readBytes_frameOf_datagram s.tx s.rx (echoTransformed s).ip (h := headerLen s.rx)
    (datagram (echoTransformed s))
  rw [← echoed_tx, length_datagram, Memory.readBytes_append, toNat_paylen_echoTransformed, datagram,
    payload_echoTransformed] at hread
  exact List.append_inj hread (Memory.length_readBytes _ _ _)

theorem frameEchoes_echoed {s : State} (h : EchoAccepts s) :
    FrameEchoes (echoed s).tx s.rx (headerLen s.rx) (field16 s.rx 2) := by
  obtain ⟨hhead, hcsum, hsrc, hdst⟩ := parts_of_readBytes_eq_ipImage (readBytes_echoed_header h)
  rw [ip_echoTransformed] at hhead hsrc hdst
  obtain ⟨hhead', -, hsrc', hdst'⟩ := parts_of_readBytes_eq_ipImage (readBytes_eq_ipImage s.rx)
  obtain ⟨hdatagram, hpayload⟩ := readBytes_echoed_datagram s
  obtain ⟨hsport, hdport, hlen, hudpCsum⟩ := parts_of_readBytes_eq_udpImage hdatagram
  obtain ⟨hsport_eq, hdport_eq, hlen_eq⟩ := ports_echoTransformed s
  rw [hsport_eq] at hsport
  rw [hdport_eq] at hdport
  rw [hlen_eq] at hlen
  obtain ⟨hsport', hdport', hlen', -⟩ :=
    parts_of_readBytes_eq_udpImage (readBytes_eq_udpImage s.rx (headerLen s.rx))
  obtain ⟨-, -, -, -, -, hfield⟩ := h
  constructor
  case start =>
    intro a ha
    have hbyte := Memory.read_of_readBytes_eq (hhead.trans ((ipHead_xformIp _).trans hhead'.symm)) ha
    rwa [Nat.zero_add] at hbyte
  case ipCsum => rw [field16_of_readBytes hcsum, toNat_ipCsum_echoTransformed]
  case addresses =>
    exact fun k hk => ⟨Memory.read_of_readBytes_eq (hsrc.trans hdst'.symm) hk,
      Memory.read_of_readBytes_eq (hdst.trans hsrc'.symm) hk⟩
  case options => exact fun a ha hah => echoed_tx s ▸ read_frameOf_options _ _ _ _ ha hah
  case portsAndLen =>
    exact fun k hk => ⟨Memory.read_of_readBytes_eq (hsport.trans hdport'.symm) hk,
      Memory.read_of_readBytes_eq (hdport.trans hsport'.symm) hk,
      Memory.read_of_readBytes_eq (hlen.trans hlen'.symm) hk⟩
  case udpCsum => rw [field16_of_readBytes hudpCsum, toNat_udpCsum_echoTransformed s hfield]
  case payload =>
    intro a ha han
    have hbyte := Memory.read_of_readBytes_eq hpayload (i := a - (headerLen s.rx + 8)) (by omega)
    rwa [Nat.add_sub_cancel' ha] at hbyte

theorem read_echoed_beyond {s : State} (h : EchoAccepts s) {a : Nat} (ha : field16 s.rx 2 ≤ a) :
    (echoed s).tx.read a = s.tx.read a := by
  rw [echoed_tx]
  refine read_frameOf_beyond _ _ _ _ (twenty_le_headerLen h) ?_
  obtain ⟨-, -, -, h8, -, -⟩ := h
  rw [length_datagram, toNat_paylen_echoTransformed]; omega

/-! ### The other registers and buffers a successful ECHO leaves -/

section
variable (s : State)

theorem toNat_txlen_echoed : (echoed s).txlen.toNat = field16 s.rx 2 := by
  simp only [echoed, toNat_ofNat_field16]

theorem ip_echoed : (echoed s).ip = (echoTransformed s).ip := by simp only [echoed]

theorem udp_echoed : (echoed s).udp = (echoTransformed s).udp := by simp only [echoed]

theorem toNat_tlen_echoed : (echoed s).ip.tlen.toNat = field16 s.rx 2 := by
  rw [ip_echoed, toNat_tlen_echoTransformed]

theorem headerBytes_echoed : headerBytes (echoed s).ip.ihl = headerLen s.rx := by
  rw [ip_echoed, headerBytes_echoTransformed]

theorem toNat_udpLen_echoed : (echoed s).udp.len.toNat = field16 s.rx (headerLen s.rx + 4) := by
  rw [udp_echoed, toNat_udpLen_echoTransformed]

/-- The IP_ registers are the header just written (R172). -/
theorem ip_echoed_eq_ipFieldsOf {s : State} (h : EchoAccepts s) : (echoed s).ip = ipFieldsOf (echoed s).tx := by
  rw [ip_echoed, ipFieldsOf_eq_of_readBytes (readBytes_echoed_header h)]

theorem udp_echoed_eq_udpFieldsOf : (echoed s).udp = udpFieldsOf (echoed s).tx (headerLen s.rx) := by
  rw [udp_echoed, udpFieldsOf_eq_of_readBytes (readBytes_echoed_datagram s).1]

theorem toNat_slOff_echoed : (echoed s).slOff.toNat = headerLen s.rx := by
  simp only [echoed, toNat_slOff_echoTransformed]

theorem toNat_slLen_echoed : (echoed s).slLen.toNat = field16 s.rx 2 - headerLen s.rx := by
  simp only [echoed, echoTransformed, xformWith, echoDecoded, toNat_ofNat_field16_sub]

theorem toNat_paylen_echoed : (echoed s).paylen.toNat = field16 s.rx 2 - headerLen s.rx - 8 := by
  simp only [echoed, toNat_paylen_echoTransformed]

theorem pay_echoed : (echoed s).pay =
    s.pay.copyFrom 0 s.rx (headerLen s.rx + 8) (field16 s.rx 2 - headerLen s.rx - 8) := by
  simp only [echoed, echoTransformed, xformWith, echoDecoded]

theorem read_pay_echoed {k : Nat} (hk : k < field16 s.rx 2 - headerLen s.rx - 8) :
    (echoed s).pay.read k = s.rx.read (headerLen s.rx + 8 + k) := by
  rw [pay_echoed, ← Memory.read_copyFrom_inside s.pay s.rx 0 _ _ hk, Nat.zero_add]

theorem read_pay_echoed_beyond {a : Nat} (ha : field16 s.rx 2 - headerLen s.rx - 8 ≤ a) :
    (echoed s).pay.read a = s.pay.read a := by
  rw [pay_echoed, Memory.read_copyFrom_outside _ _ _ _ _ (.inr (by rwa [Nat.zero_add]))]

/-- What ECHO does not write: RXBUF, RXLEN, the CS_ registers and what is the host's (R172). -/
theorem echoed_withErr_eq : (echoed s).withErr okCode =
    { s with tx := (echoed s).tx, txlen := (echoed s).txlen, ip := (echoed s).ip, udp := (echoed s).udp,
             slOff := (echoed s).slOff, slLen := (echoed s).slLen, pay := (echoed s).pay,
             paylen := (echoed s).paylen, err := 0 } := by
  simp only [echoed, echoTransformed, xformWith, echoDecoded, State.withErr, okCode]

end

/-- Settles O41: the state is `echoed s`, whose frame is the echo of the received one. -/
theorem echoSuccessPostcondition : Obligations.EchoSuccessPostcondition := by
  refine fun s => ⟨fun t => exec_echo_err_eq_zero_iff, fun hacc => ⟨_, exec_echo_of_accepts hacc, ?_⟩⟩
  obtain ⟨hstart, hipCsum, haddr, hopt, hports, hudpCsum, hpay⟩ := frameEchoes_echoed hacc
  have ⟨_, _, _, h8, _, hfield⟩ := hacc
  have hslLen := toNat_slLen_echoed s
  have hpaylen := toNat_paylen_echoed s
  have hudpLen := (toNat_udpLen_echoed s).trans hfield
  have htlen := toNat_tlen_echoed s
  have hihl : (echoed s).ip.ihl.toNat * 4 = headerLen s.rx := headerBytes_echoed s
  simp only [withErr_err, withErr_txlen, withErr_tx, withErr_ip, withErr_udp, withErr_slOff, withErr_slLen,
    withErr_paylen, withErr_pay]
  exact ⟨rfl, toNat_txlen_echoed s, hstart, hipCsum, haddr, hopt, hports, hudpCsum, hpay,
    fun a => read_echoed_beyond hacc, ip_echoed_eq_ipFieldsOf hacc, udp_echoed_eq_udpFieldsOf s,
    toNat_slOff_echoed s, hslLen, hpaylen, fun k => read_pay_echoed s, fun a => read_pay_echoed_beyond s,
    by omega, BitVec.eq_of_toNat_eq (hudpLen.trans hslLen.symm), by omega, echoed_withErr_eq s⟩

end Sys2Proof.Machine

/-! PROOF. ECHO of an echoed frame (R175): the relation `FrameEchoes` applied twice. -/

namespace Sys2Proof.Machine

/-! ### Fields of buffers that read alike -/

theorem field16_congr {m m' : Memory} {a b : Nat} (h : m.read a = m'.read b) (h' : m.read (a + 1) = m'.read (b + 1)) :
    field16 m a = field16 m' b := by
  rw [field16, field16, byteNat, byteNat, h, h']; rfl

theorem read_eq_of_field16_eq {m m' : Memory} {a b : Nat} (h : field16 m a = field16 m' b) :
    m.read a = m'.read b ∧ m.read (a + 1) = m'.read (b + 1) := by
  have h1 := byteNat_lt m (a + 1)
  have h2 := byteNat_lt m' (b + 1)
  unfold field16 at h
  have hhigh : byteNat m a = byteNat m' b := by omega
  have hlow : byteNat m (a + 1) = byteNat m' (b + 1) := by omega
  exact ⟨BitVec.eq_of_toNat_eq hhigh, BitVec.eq_of_toNat_eq hlow⟩

/-- The two buffers hold the same first `n` bytes. -/
abbrev ReadAlike (m m' : Memory) (n : Nat) : Prop := ∀ a, a < n → m.read a = m'.read a

section
variable {m m' : Memory} {n : Nat} (hm : ReadAlike m m' n)
include hm

theorem ReadAlike.field16_eq {a : Nat} (ha : a + 1 < n) : field16 m a = field16 m' a :=
  field16_congr (hm a (by omega)) (hm (a + 1) ha)

theorem ReadAlike.byteNat_eq {a : Nat} (ha : a < n) : byteNat m a = byteNat m' a := congrArg BitVec.toNat (hm a ha)

theorem ReadAlike.headerLen_eq (h0 : 0 < n) : headerLen m = headerLen m' := by
  rw [headerLen, hm.byteNat_eq h0, headerLen]

theorem ReadAlike.headerSum_eq (h20 : 20 ≤ n) : headerSum m = headerSum m' := by
  have field {a : Nat} (ha : a < 19) : field16 m a = field16 m' a := hm.field16_eq (by omega)
  simp only [headerSum, field, Nat.reduceLT]

theorem ReadAlike.datagramSum_eq {h : Nat} (h20 : 20 ≤ h) (h8 : h + 8 ≤ n) :
    datagramSum m h (n - h) = datagramSum m' h (n - h) := by
  have field {a : Nat} (ha : a < h + 4) : field16 m a = field16 m' a := hm.field16_eq (by omega)
  have hpayload : m.readBytes (h + 8) (n - h - 8) = m'.readBytes (h + 8) (n - h - 8) :=
    Memory.readBytes_congr fun i hi => hm _ (by omega)
  rw [datagramSum, datagramSum, hpayload, field (by omega), field (by omega), field (by omega), field (by omega),
    field (by omega), field (by omega)]

end

theorem readAlike_of_rxFrame_eq_txFrame {s t : State} (h : rxFrame s = txFrame t) :
    s.rxlen = t.txlen ∧ ReadAlike s.rx t.tx t.txlen.toNat := by
  have hlen := congrArg List.length h
  rw [rxFrame, txFrame, Memory.length_readBytes, Memory.length_readBytes] at hlen
  rw [rxFrame, txFrame, hlen] at h
  refine ⟨BitVec.eq_of_toNat_eq hlen, fun a ha => ?_⟩
  have hbyte := Memory.read_of_readBytes_eq h ha
  rwa [Nat.zero_add] at hbyte

/-! ### The echo as a permutation of offsets -/

/-- The offsets of the two checksum fields. -/
abbrev InChecksumField (h a : Nat) : Prop := a = 10 ∨ a = 11 ∨ a = h + 6 ∨ a = h + 7

/-- Where the byte that an echo has at `a` stood in the received frame: the endpoints are swapped. -/
def echoOffset (h a : Nat) : Nat :=
  if 12 ≤ a ∧ a < 16 then a + 4
  else if 16 ≤ a ∧ a < 20 then a - 4
  else if h ≤ a ∧ a < h + 2 then a + 2
  else if h + 2 ≤ a ∧ a < h + 4 then a - 2
  else a

theorem echoOffset_cases (h a : Nat) :
    (12 ≤ a ∧ a < 16 ∧ echoOffset h a = a + 4) ∨ (16 ≤ a ∧ a < 20 ∧ echoOffset h a = a - 4) ∨
      (¬ (12 ≤ a ∧ a < 20) ∧ h ≤ a ∧ a < h + 2 ∧ echoOffset h a = a + 2) ∨
      (¬ (12 ≤ a ∧ a < 20) ∧ h + 2 ≤ a ∧ a < h + 4 ∧ echoOffset h a = a - 2) ∨
      (¬ (12 ≤ a ∧ a < 20) ∧ ¬ (h ≤ a ∧ a < h + 4) ∧ echoOffset h a = a) := by
  unfold echoOffset
  split_ifs with hsrc hdst hsport hdport
  · exact .inl ⟨hsrc.1, hsrc.2, rfl⟩
  · exact .inr (.inl ⟨hdst.1, hdst.2, rfl⟩)
  · exact .inr (.inr (.inl ⟨by omega, hsport.1, hsport.2, rfl⟩))
  · exact .inr (.inr (.inr (.inl ⟨by omega, hdport.1, hdport.2, rfl⟩)))
  · exact .inr (.inr (.inr (.inr ⟨by omega, by omega, rfl⟩)))

section
variable {h : Nat} (h20 : 20 ≤ h)
include h20

theorem echoOffset_echoOffset (a : Nat) : echoOffset h (echoOffset h a) = a := by
  have := echoOffset_cases h a
  have := echoOffset_cases h (echoOffset h a)
  omega

theorem not_inChecksumField_echoOffset {a : Nat} (ha : ¬ InChecksumField h a) :
    ¬ InChecksumField h (echoOffset h a) := by
  have := echoOffset_cases h a
  omega

theorem echoOffset_lt {n : Nat} (h8 : h + 8 ≤ n) {a : Nat} (ha : a < n) : echoOffset h a < n := by
  have := echoOffset_cases h a
  omega

end

namespace FrameEchoes

variable {m src : Memory} {h n : Nat} (e : FrameEchoes m src h n)
include e

/-- An echo outside its checksum fields is the received frame with its offsets permuted. -/
theorem read_eq {a : Nat} (ha : a < n) (hc : ¬ InChecksumField h a) : m.read a = src.read (echoOffset h a) := by
  rcases echoOffset_cases h a with ⟨hlo, hhi, ho⟩ | ⟨hlo, hhi, ho⟩ | ⟨-, hlo, hhi, ho⟩ | ⟨-, hlo, hhi, ho⟩ |
    ⟨hip, hudp, ho⟩ <;> rw [ho]
  · obtain ⟨k, rfl⟩ := Nat.exists_eq_add_of_le hlo
    rw [(e.addresses k (by omega)).1, Nat.add_right_comm]
  · obtain ⟨k, rfl⟩ := Nat.exists_eq_add_of_le hlo
    rw [(e.addresses k (by omega)).2, show 16 + k - 4 = 12 + k by omega]
  · obtain ⟨k, rfl⟩ := Nat.exists_eq_add_of_le hlo
    rw [(e.portsAndLen k (by omega)).1, Nat.add_right_comm]
  · obtain ⟨k, rfl⟩ := Nat.exists_eq_add_of_le hlo
    rw [(e.portsAndLen k (by omega)).2.1, show h + 2 + k - 2 = h + k by omega]
  · rcases Nat.lt_or_ge a 10 with hlt | hge
    · exact e.start a hlt
    · rcases Nat.lt_or_ge a h with hlt | hge
      · exact e.options a (by omega) hlt
      · rcases Nat.lt_or_ge a (h + 8) with hlt | hge
        · obtain ⟨k, rfl⟩ := Nat.exists_eq_add_of_le (show h + 4 ≤ a by omega)
          exact (e.portsAndLen k (by omega)).2.2
        · exact e.payload a hge ha

theorem byteNat_zero_eq : byteNat m 0 = byteNat src 0 := congrArg BitVec.toNat (e.start 0 (by decide))

theorem headerLen_eq : headerLen m = headerLen src := by rw [headerLen, e.byteNat_zero_eq, headerLen]

theorem field16_start_eq {a : Nat} (ha : a < 9) : field16 m a = field16 src a :=
  field16_congr (e.start a (by omega)) (e.start (a + 1) (by omega))

theorem addressFields_eq : field16 m 12 = field16 src 16 ∧ field16 m 14 = field16 src 18 ∧
    field16 m 16 = field16 src 12 ∧ field16 m 18 = field16 src 14 := by
  have h0 := e.addresses 0 (by decide)
  have h1 := e.addresses 1 (by decide)
  have h2 := e.addresses 2 (by decide)
  have h3 := e.addresses 3 (by decide)
  exact ⟨field16_congr h0.1 h1.1, field16_congr h2.1 h3.1, field16_congr h0.2 h1.2, field16_congr h2.2 h3.2⟩

theorem udpFields_eq : field16 m h = field16 src (h + 2) ∧ field16 m (h + 2) = field16 src h ∧
    field16 m (h + 4) = field16 src (h + 4) := by
  obtain ⟨hsport, hdport, hlen⟩ := e.portsAndLen 0 (by decide)
  obtain ⟨hsport', hdport', hlen'⟩ := e.portsAndLen 1 (by decide)
  exact ⟨field16_congr hsport hsport', field16_congr hdport hdport', field16_congr hlen hlen'⟩

/-- The swapped addresses are terms of the header sum in either order. -/
theorem headerSum_eq : headerSum m = headerSum src := by
  obtain ⟨h12, h14, h16, h18⟩ := e.addressFields_eq
  rw [headerSum, headerSum, h12, h14, h16, h18]
  simp only [e.field16_start_eq, Nat.reduceLT]
  omega

/-- The swapped addresses and ports are terms of the datagram sum in either order. -/
theorem datagramSum_eq : datagramSum m h (n - h) = datagramSum src h (n - h) := by
  obtain ⟨h12, h14, h16, h18⟩ := e.addressFields_eq
  obtain ⟨hsport, hdport, -⟩ := e.udpFields_eq
  have hpayload : m.readBytes (h + 8) (n - h - 8) = src.readBytes (h + 8) (n - h - 8) :=
    Memory.readBytes_congr fun i hi => e.payload _ (by omega) (by omega)
  rw [datagramSum, datagramSum, hpayload, h12, h14, h16, h18, hsport, hdport]
  omega

/-- The echo `m'` of the echo `m` of `src` is `src` with the checksum fields of `m`: the swap is its own inverse, and
neither checksum depends on the order of the endpoints. -/
theorem twice {m' src' : Memory} (e' : FrameEchoes m' src' h n) (halike : ReadAlike src' m n) (h20 : 20 ≤ h)
    (h8 : h + 8 ≤ n) {a : Nat} (ha : a < n) :
    m'.read a = if InChecksumField h a then m.read a else src.read a := by
  split_ifs with hc
  · have hip : field16 m' 10 = field16 m 10 := by
      rw [e'.ipCsum, e.ipCsum, halike.headerSum_eq (by omega), e.headerSum_eq]
    have hudp : field16 m' (h + 6) = field16 m (h + 6) := by
      rw [e'.udpCsum, e.udpCsum, halike.datagramSum_eq h20 h8, e.datagramSum_eq]
    obtain ⟨h10, h11⟩ := read_eq_of_field16_eq hip
    obtain ⟨h6, h7⟩ := read_eq_of_field16_eq hudp
    rcases hc with rfl | rfl | rfl | rfl
    exacts [h10, h11, h6, h7]
  · calc m'.read a
        = src'.read (echoOffset h a) := e'.read_eq ha hc
      _ = m.read (echoOffset h a) := halike _ (echoOffset_lt h20 h8 ha)
      _ = src.read (echoOffset h (echoOffset h a)) :=
          e.read_eq (echoOffset_lt h20 h8 ha) (not_inChecksumField_echoOffset h20 hc)
      _ = src.read a := by rw [echoOffset_echoOffset h20]

end FrameEchoes

/-! ### ECHO of an echoed frame (R175) -/

/-- A state that has received the frame ECHO produced meets the tests of ECHO, with the same header and total length. -/
theorem accepts_of_readAlike_echoed {s s' : State} (h : EchoAccepts s) (hlen : s'.rxlen.toNat = field16 s.rx 2)
    (halike : ReadAlike s'.rx (echoed s).tx (field16 s.rx 2)) :
    EchoAccepts s' ∧ headerLen s'.rx = headerLen s.rx ∧ field16 s'.rx 2 = field16 s.rx 2 := by
  have e := frameEchoes_echoed h
  have h20 := twenty_le_headerLen h
  obtain ⟨-, h5, -, h8, -, hfield⟩ := h
  have hbyte : byteNat s'.rx 0 = byteNat s.rx 0 := (halike.byteNat_eq (by omega)).trans e.byteNat_zero_eq
  have hhead : headerLen s'.rx = headerLen s.rx := (halike.headerLen_eq (by omega)).trans e.headerLen_eq
  have htlen : field16 s'.rx 2 = field16 s.rx 2 :=
    (halike.field16_eq (by omega)).trans (e.field16_start_eq (by decide))
  obtain ⟨-, -, hlen_eq⟩ := e.udpFields_eq
  have hudpLen : field16 s'.rx (headerLen s.rx + 4) = field16 s.rx (headerLen s.rx + 4) :=
    (halike.field16_eq (by omega)).trans hlen_eq
  refine ⟨?_, hhead, htlen⟩
  rw [EchoAccepts, hbyte, hhead, htlen, hudpLen, hlen]
  exact ⟨by omega, h5, by omega, h8, Nat.le_refl _, hfield⟩

/-- Settles O43: the second frame is accepted, and is the echo of the echo of the first. -/
theorem echoOfAnEchoedFrame : Obligations.EchoOfAnEchoedFrame := by
  intro s t s' hecho herr hframe
  have hacc := (exec_echo_err_eq_zero_iff hecho).1 herr
  obtain rfl : (echoed s).withErr okCode = t := Host.Outcome.next.inj ((exec_echo_of_accepts hacc).symm.trans hecho)
  have htxlen := toNat_txlen_echoed s
  obtain ⟨hlen, halike⟩ := readAlike_of_rxFrame_eq_txFrame hframe
  rw [withErr_txlen] at hlen halike
  rw [withErr_tx, htxlen] at halike
  obtain ⟨hacc', hhead, htlen⟩ := accepts_of_readAlike_echoed hacc (hlen ▸ htxlen) halike
  have e' := frameEchoes_echoed hacc'
  rw [hhead, htlen] at e'
  have ⟨_, _, _, h8, _, _⟩ := hacc
  have hread {a : Nat} (ha : a < field16 s.rx 2) := (frameEchoes_echoed hacc).twice e' halike
    (twenty_le_headerLen hacc) h8 ha
  have htxlen' : (echoed s').txlen = (echoed s).txlen :=
    BitVec.eq_of_toNat_eq (by rw [toNat_txlen_echoed, toNat_txlen_echoed, htlen])
  refine ⟨_, exec_echo_of_accepts hacc', ?_⟩
  simp only [withErr_err, withErr_txlen, withErr_tx, txFrame, htxlen', htxlen]
  refine ⟨rfl, trivial, fun a ha => hread ha, fun h10 h11 h6 h7 => Memory.readBytes_congr fun a ha => ?_⟩
  rw [Nat.zero_add, hread ha]
  split_ifs with hc
  · rcases hc with rfl | rfl | rfl | rfl
    exacts [h10, h11, h6, h7]
  · rfl

end Sys2Proof.Machine

/-! PROOF. The host's writes (44_host_access.md R181, R183, R184) and SRST (R186): which register a number names, what a
write to it makes of the register map, one byte written, and the nine registers of the soft reset. -/

namespace Sys2Proof.Machine

/-! ### A write to a register (R181) -/

/-- Each number of the table of R20 that may be written is a register other than CMD. -/
theorem exists_reg_of_mem_writableWidths {n w : Nat} (h : (n, w) ∈ writableWidths) :
    ∃ r, Reg.ofNumber n = some r ∧ r ≠ .cmd := by
  fin_cases h <;> exact ⟨_, rfl, by decide⟩

theorem hostEvent_hwr {n : Nat} {r : Reg} (hr : Reg.ofNumber n = some r) (hc : r ≠ .cmd) (v : BusWord) (s : State) :
    hostEvent (.hwr n v) s = .next (writeReg s v r) := by
  rw [hostEvent, hostWriteReg, hr]
  split
  next heq => exact absurd (Option.some.inj heq) hc
  next heq => cases heq; rfl
  next heq => cases heq

/-- The entry of the written register becomes the low bits of `v`; every other entry of the register map stays. -/
theorem registerValues_writeReg {n w : Nat} {r : Reg} (hw : (n, w) ∈ writableWidths) (hr : Reg.ofNumber n = some r)
    (v : BusWord) (s : State) : registerValues (writeReg s v r) =
      (registerValues s).map fun p => if p.1 = n then (n, v.toNat % 2 ^ w) else p := by
  have hv : v.toNat % 4294967296 = v.toNat := Nat.mod_eq_of_lt v.isLt
  fin_cases hw <;> cases hr <;> simp [registerValues, writeReg, hv]

/-- Only registers are written: no buffer and none of the host's lists (R181). -/
theorem writeReg_frame (s : State) (v : BusWord) (r : Reg) :
    (writeReg s v r).rx = s.rx ∧ (writeReg s v r).tx = s.tx ∧ (writeReg s v r).pay = s.pay ∧
      (writeReg s v r).hostIn = s.hostIn ∧ (writeReg s v r).hostOut = s.hostOut ∧
      (writeReg s v r).draws = s.draws := by
  cases r <;> simp [writeReg]

theorem issueCommand_legal {c : BusWord} {i : Instr} (h : decode c = .ok i) (s : State) :
    issueCommand c s = exec i s := by
  rw [issueCommand, h]

/-- Settles O12: a writable number goes through `writeReg`, a read-only one leaves the state, CMD issues a command. -/
theorem hwrKeepsTheLowBits : Obligations.HwrKeepsTheLowBits := by
  intro s n v
  refine ⟨fun w hw => ?_, ?_, ?_⟩
  · obtain ⟨r, hr, hc⟩ := exists_reg_of_mem_writableWidths hw
    exact ⟨_, hostEvent_hwr hr hc v s, registerValues_writeReg hw hr v s, writeReg_frame s v r⟩
  · rintro (rfl | rfl)
    · exact hostEvent_hwr (r := .err) rfl (by decide) v s
    · exact hostEvent_hwr (r := .csRes) rfl (by decide) v s
  · rintro rfl
    rw [hostEvent_writeCmd]
    exact ⟨fun i hi => issueCommand_legal hi s, fun e he => issueCommand_illegal ⟨e, he⟩ s⟩

/-! ### A write to a byte (R183) -/

theorem hostEvent_hbw {off : Nat} (h : off < 65535) (buf : BufId) (b : Byte) (s : State) :
    hostEvent (.hbw buf off b) s = .next (s.withBuffer buf ((s.buffer buf).write off b)) := if_pos h

/-- Settles O13: the buffer becomes `Memory.write` of itself. -/
theorem hbwWritesOneByte : Obligations.HbwWritesOneByte := fun s buf off b h =>
  ⟨_, hostEvent_hbw h buf b s, Memory.read_write_same _ off b, fun _ ha => Memory.read_write_other _ ha b⟩

/-! ### SRST (R186) -/

theorem exec_srst (s : State) : exec .srst s = .next (zeroControl s) := rfl

/-- Settles O18: SRST is `zeroControl`. -/
theorem srstZeroesTheNineRegisters : Obligations.SrstZeroesTheNineRegisters := exec_srst

end Sys2Proof.Machine

/-! PROOF. The table of R203 (60_exceptions.md): each failing row names one stage, the stages before it raise nothing
and it raises the row's error; and what that says of ECHO (R171) and of the commands issued one by one. -/

namespace Sys2Proof.Machine

/-! ### A run of stages that one of them ends -/

/-- Stage number `k` of the list, counted from 0, raises `e` on the state `u` that the stages before it leave
from `s`. -/
def RaisesAt (stages : List Body) (s : State) (k : Nat) (u : State) (e : CoreError) : Prop :=
  runStages (stages.take k) s = (u, none) ∧ ∃ body, stages[k]? = some body ∧ body u = .error e

theorem runStages_append_of_none {first : List Body} (rest : List Body) {s u : State}
    (h : runStages first s = (u, none)) : runStages (first ++ rest) s = runStages rest u := by
  induction first generalizing s with
  | nil => rw [List.nil_append, runStages_nil_eq_none_iff.1 h]
  | cons body first ih =>
    obtain ⟨t, ht, hrest⟩ := runStages_cons_eq_none_iff.1 h
    rw [List.cons_append, runStages_cons_ok ht, ih hrest]

theorem runStages_of_raisesAt {stages : List Body} {s u : State} {k : Nat} {e : CoreError}
    (h : RaisesAt stages s k u e) : runStages stages s = (u, some e) := by
  obtain ⟨hfirst, body, hk, hbody⟩ := h
  obtain ⟨hlt, rfl⟩ := List.getElem?_eq_some_iff.1 hk
  rw [← List.take_append_drop k stages, List.drop_eq_getElem_cons hlt, runStages_append_of_none _ hfirst,
    runStages_cons_error hbody]

/-- The commands of the stages before the raising one, issued from ERR 0, leave ERR 0; its own command then leaves the
error's code. -/
theorem runCommands_of_raisesAt {is : List Instr} {stages : List Body} (hstages : List.Forall₂ RunsStage is stages)
    {s u : State} {k : Nat} {e : CoreError} (h : RaisesAt stages s k u e) :
    ∃ i, is[k]? = some i ∧ runCommands (is.take k) (s.withErr okCode) = .next (u.withErr okCode) ∧
      exec i (u.withErr okCode) = .next (u.withErr e.code) := by
  obtain ⟨hfirst, body, hk, hbody⟩ := h
  obtain ⟨hlt, rfl⟩ := List.getElem?_eq_some_iff.1 hk
  have hlt' : k < is.length := hstages.length_eq ▸ hlt
  obtain ⟨hexec, hignores⟩ : RunsStage is[k] stages[k] := hstages.get hlt' hlt
  refine ⟨is[k], List.getElem?_eq_getElem hlt', ?_, ?_⟩
  · rw [runCommands_eq_runStages (List.forall₂_take k hstages), hfirst]; rfl
  · rw [hexec, standalone_withErr hignores, standalone_error hbody]

theorem exec_echo_of_raisesAt {s u : State} {k : Nat} {e : CoreError} (h : RaisesAt echoStages s k u e) :
    exec .echo s = .next ({ u with txlen := 0 }.withErr e.code) := by
  rw [exec_echo, execEcho, runStages_of_raisesAt h]; rfl

/-! ### The stage and the error of each failing row -/

theorem raisesAt_ip4dec_truncated {s : State} (h : s.rxlen.toNat < 20) :
    RaisesAt echoStages s 0 s .truncatedBuffer :=
  ⟨rfl, ip4decBody, rfl, ip4decBody_truncated h⟩

theorem raisesAt_ip4dec_invalid {s : State} (h20 : 20 ≤ s.rxlen.toNat)
    (h : byteNat s.rx 0 % 16 < 5 ∨ s.rxlen.toNat < headerLen s.rx) :
    RaisesAt echoStages s 0 s .invalidHeaderLength := by
  rw [← toNat_ihlOfByte, ← headerBytes_ihlOfByte] at h
  exact ⟨rfl, ip4decBody, rfl, ip4decBody_invalid h20 h⟩

section
variable {s : State} (h20 : 20 ≤ s.rxlen.toNat) (h5 : 5 ≤ byteNat s.rx 0 % 16)
  (hhead : headerLen s.rx ≤ s.rxlen.toNat)
include h20 h5 hhead

/-- The total length is less than the header's, or more than was received. -/
theorem raisesAt_slice_invalid (h : field16 s.rx 2 < headerLen s.rx ∨ s.rxlen.toNat < field16 s.rx 2) :
    ∃ u, RaisesAt echoStages s 1 u .invalidHeaderLength := by
  refine ⟨_, runStages_cons_eq_none_iff.2 ⟨_, ip4decBody_eq_ok_iff.2 ⟨h20, h5, hhead, rfl⟩, rfl⟩,
    sliceBody, rfl, sliceBody_invalid ?_⟩
  rwa [toNat_ipFieldsOf_tlen, headerBytes_ipFieldsOf]

/-- The slice has no room for a UDP header. -/
theorem raisesAt_udpdec_truncated (hihl : headerLen s.rx ≤ field16 s.rx 2) (hlen : field16 s.rx 2 ≤ s.rxlen.toNat)
    (h8 : field16 s.rx 2 - headerLen s.rx < 8) : ∃ u, RaisesAt echoStages s 2 u .truncatedBuffer := by
  refine ⟨_, runStages_cons_eq_none_iff.2 ⟨_, ip4decBody_eq_ok_iff.2 ⟨h20, h5, hhead, rfl⟩,
      runStages_cons_eq_none_iff.2 ⟨_, sliceBody_eq_ok_iff.2 ⟨?_, ?_, rfl⟩, rfl⟩⟩,
    udpdecBody, rfl, udpdecBody_truncated (.inr ?_)⟩
  · rwa [headerBytes_ipFieldsOf, toNat_ipFieldsOf_tlen]
  · rwa [toNat_ipFieldsOf_tlen]
  · rwa [toNat_ipFieldsOf_tlen, headerBytes_ipFieldsOf, toNat_ofNat_field16_sub]

end

/-- IP4ENC and OPTCPY cannot raise on a frame that the decoders accept, and leave what UDPENC tests. -/
theorem runFirstEncoders_of_decodersAccept {s : State} (h : DecodersAccept s) :
    ∃ u, runStages [ip4encBody, optcpyBody] (echoTransformed s) = (u, none) ∧
      u.udp = (echoTransformed s).udp ∧ u.paylen = (echoTransformed s).paylen := by
  obtain ⟨-, h5, hhead, h8, -⟩ := h
  have h20 : 20 ≤ headerLen s.rx := by rw [headerLen]; omega
  refine ⟨_, runStages_cons_eq_none_iff.2 ⟨_, ip4encBody_eq_ok_iff.2 ⟨?_, ?_, rfl⟩,
    runStages_cons_eq_none_iff.2 ⟨_, optcpyBody_eq_ok_iff.2 ⟨?_, rfl⟩, rfl⟩⟩, rfl, rfl⟩
  · rw [headerBytes_echoTransformed, toNat_tlen_echoTransformed]; omega
  · rw [toNat_tlen_echoTransformed]; omega
  · rwa [toNat_slOff_echoTransformed, rxlen_echoTransformed]

/-- The UDP length is not the slice's. -/
theorem raisesAt_udpenc_invalid {s : State} (h : DecodersAccept s)
    (hne : field16 s.rx (headerLen s.rx + 4) ≠ field16 s.rx 2 - headerLen s.rx) :
    ∃ u, RaisesAt echoStages s 6 u .invalidLength := by
  obtain ⟨u, hu, hudp, hpaylen⟩ := runFirstEncoders_of_decodersAccept h
  have hfirst : runStages (echoStages.take 6) s = (u, none) :=
    (runStages_append_of_none [ip4encBody, optcpyBody] (runDecoders_eq_none_iff.2 ⟨h, rfl⟩)).trans hu
  refine ⟨u, hfirst, udpencBody, rfl, udpencBody_invalid (.inl ?_)⟩
  rw [hudp, hpaylen, toNat_udpLen_echoTransformed, toNat_paylen_echoTransformed]
  obtain ⟨-, -, -, h8, -⟩ := h
  omega

/-! ### The table -/

/-- The table of R203, row by row: the last row's frames ECHO accepts; every other row's stage raises its error. -/
theorem echoRow_cases (s : State) :
    (EchoAccepts s ∧ echoCode s = 0 ∧ echoStage s = 0) ∨
    (∃ k u e, echoCode s = e.code.toNat ∧ echoStage s = k + 1 ∧ RaisesAt echoStages s k u e) := by
  unfold echoCode echoStage
  split_ifs with h20 h5 hhead hihl hlen h8 hudp
  · exact .inr ⟨0, s, .truncatedBuffer, rfl, rfl, raisesAt_ip4dec_truncated h20⟩
  · exact .inr ⟨0, s, .invalidHeaderLength, rfl, rfl, raisesAt_ip4dec_invalid (by omega) (.inl h5)⟩
  · exact .inr ⟨0, s, .invalidHeaderLength, rfl, rfl, raisesAt_ip4dec_invalid (by omega) (.inr hhead)⟩
  · obtain ⟨u, hu⟩ := raisesAt_slice_invalid (s := s) (by omega) (by omega) (by omega) (.inl hihl)
    exact .inr ⟨1, u, .invalidHeaderLength, rfl, rfl, hu⟩
  · obtain ⟨u, hu⟩ := raisesAt_slice_invalid (s := s) (by omega) (by omega) (by omega) (.inr hlen)
    exact .inr ⟨1, u, .invalidHeaderLength, rfl, rfl, hu⟩
  · obtain ⟨u, hu⟩ := raisesAt_udpdec_truncated (s := s) (by omega) (by omega) (by omega) (by omega) (by omega) h8
    exact .inr ⟨2, u, .truncatedBuffer, rfl, rfl, hu⟩
  · obtain ⟨u, hu⟩ := raisesAt_udpenc_invalid (s := s)
      ⟨by omega, by omega, by omega, by omega, by omega⟩ hudp
    exact .inr ⟨6, u, .invalidLength, rfl, rfl, hu⟩
  · exact .inl ⟨⟨by omega, by omega, by omega, by omega, by omega, by omega⟩, rfl, rfl⟩

/-- Settles O40: ECHO ends as the row's stage does, and that stage's command raises after commands that do not. -/
theorem echoOutcomeFollowsTheFrame : Obligations.EchoOutcomeFollowsTheFrame := by
  intro s
  rcases echoRow_cases s with ⟨hacc, hcode, hstage⟩ | ⟨k, u, e, hcode, hstage, hraises⟩
  · refine ⟨_, exec_echo_of_accepts hacc, hcode.symm, fun hne => absurd rfl hne, iff_of_true hstage rfl, ?_⟩
    intro k hk
    omega
  · refine ⟨_, exec_echo_of_raisesAt hraises, hcode.symm, fun _ => rfl,
      iff_of_false (by omega) (code_ne_ok e), ?_⟩
    intro k' hk'
    obtain rfl : k' = k := by omega
    obtain ⟨i, hi, hbefore, hexec⟩ := runCommands_of_raisesAt echoCommands_runStages hraises
    exact ⟨i, _, _, hi, hbefore, rfl, hexec, rfl⟩

end Sys2Proof.Machine

/-! PROOF. What holds of every command: it is one of eight bodies followed by ERR, or ECHO, or SRST. From that, that
every command ends (60_exceptions.md R208), what it keeps, that it does not read ERR (10_state.md R18), what it may
write (R12, R14, R21, R23), and the invariant of every step (R22, R45). -/

namespace Sys2Proof.Machine

/-! ### The three forms of a command -/

/-- What holds of each of the seven stages holds of every stage of ECHO. -/
theorem forall_mem_echoStages {P : Body → Prop} (hip4dec : P ip4decBody) (hslice : P sliceBody)
    (hudpdec : P udpdecBody) (hxform : P xformBody) (hip4enc : P ip4encBody) (hoptcpy : P optcpyBody)
    (hudpenc : P udpencBody) : ∀ body ∈ echoStages, P body := by
  simp only [echoStages, List.forall_mem_cons]
  exact ⟨hip4dec, hslice, hudpdec, hxform, hip4enc, hoptcpy, hudpenc, by simp⟩

/-- The bodies of the standalone commands: CSUM and the stages of ECHO. -/
def commandBodies : List Body := csumBody :: echoStages

theorem mem_commandBodies_of_mem_echoStages {body : Body} (h : body ∈ echoStages) : body ∈ commandBodies :=
  List.mem_cons_of_mem csumBody h

theorem exec_cases (i : Instr) :
    i = .srst ∨ i = .echo ∨ ∃ body ∈ commandBodies, ∀ s, exec i s = standalone body s := by
  cases i with
  | srst => exact .inl rfl
  | echo => exact .inr (.inl rfl)
  | csum => exact .inr (.inr ⟨csumBody, by simp [commandBodies], exec_csum⟩)
  | ip4dec => exact .inr (.inr ⟨ip4decBody, by simp [commandBodies, echoStages], exec_ip4dec⟩)
  | ip4enc => exact .inr (.inr ⟨ip4encBody, by simp [commandBodies, echoStages], exec_ip4enc⟩)
  | udpdec => exact .inr (.inr ⟨udpdecBody, by simp [commandBodies, echoStages], exec_udpdec⟩)
  | udpenc => exact .inr (.inr ⟨udpencBody, by simp [commandBodies, echoStages], exec_udpenc⟩)
  | slice => exact .inr (.inr ⟨sliceBody, by simp [commandBodies, echoStages], exec_slice⟩)
  | xform => exact .inr (.inr ⟨xformBody, by simp [commandBodies, echoStages], fun _ => rfl⟩)
  | optcpy => exact .inr (.inr ⟨optcpyBody, by simp [commandBodies, echoStages], exec_optcpy⟩)

/-- Whatever a command does, its last action is to store a legal code in ERR (R18). -/
theorem exec_eq_withErr (i : Instr) (s : State) : ∃ (t : State) (c : BitVec 3),
    exec i s = .next (t.withErr c) ∧ c.toNat ≤ 4 := by
  rcases exec_cases i with rfl | rfl | ⟨body, -, hexec⟩
  · exact ⟨zeroControl s, okCode, exec_srst s, by decide⟩
  · rcases execEcho_cases s with ⟨t, -, hecho⟩ | ⟨t, e, -, hecho⟩
    · exact ⟨t, okCode, hecho, by decide⟩
    · exact ⟨_, e.code, hecho, code_le_four e⟩
  · rw [hexec]
    rcases standalone_cases body s with ⟨t, -, hok⟩ | ⟨e, -, herr⟩
    · exact ⟨t, okCode, hok, by decide⟩
    · exact ⟨s, e.code, herr, code_le_four e⟩

theorem err_le_four_of_exec {i : Instr} {s t : State} (h : exec i s = .next t) : t.err.toNat ≤ 4 := by
  obtain ⟨u, c, hu, hc⟩ := exec_eq_withErr i s
  obtain rfl := Host.Outcome.next.inj (hu.symm.trans h)
  exact hc

/-- A property that ERR has no part in holds after a standalone command if it does before it and after its body. -/
theorem standalone_keeps {P : State → Prop} (herr : ∀ s c, P s → P (s.withErr c)) {body : Body} {s t : State}
    (hs : P s) (hbody : ∀ u, body s = .ok u → P u) (h : standalone body s = .next t) : P t := by
  rcases standalone_cases body s with ⟨u, hu, hok⟩ | ⟨e, -, hraise⟩
  · obtain rfl := Host.Outcome.next.inj (hok.symm.trans h)
    exact herr u okCode (hbody u hu)
  · obtain rfl := Host.Outcome.next.inj (hraise.symm.trans h)
    exact herr s e.code hs

/-- A property that every body keeps, and the writes of ERR, TXLEN and the nine registers do, is kept by every
command. -/
theorem exec_keeps {P : State → Prop} (herr : ∀ s c, P s → P (s.withErr c))
    (htxlen : ∀ s : State, P s → P { s with txlen := 0 }) (hzero : ∀ s, P s → P (zeroControl s))
    (hbody : ∀ body ∈ commandBodies, ∀ s t, P s → body s = .ok t → P t) {i : Instr} {s t : State} (hs : P s)
    (h : exec i s = .next t) : P t := by
  rcases exec_cases i with rfl | rfl | ⟨body, hmem, hexec⟩
  · obtain rfl := Host.Outcome.next.inj ((exec_srst s).symm.trans h)
    exact hzero s hs
  · have hrun : P (runStages echoStages s).1 :=
      runStages_keeps (fun body hmem => hbody body (mem_commandBodies_of_mem_echoStages hmem)) hs
    rw [exec_echo] at h
    rcases execEcho_cases s with ⟨u, hu, hecho⟩ | ⟨u, e, hu, hecho⟩ <;> rw [hu] at hrun <;>
      obtain rfl := Host.Outcome.next.inj (hecho.symm.trans h)
    · exact herr u okCode hrun
    · exact herr _ e.code (htxlen u hrun)
  · exact standalone_keeps herr hs (fun u => hbody body hmem s u hs) ((hexec s).symm.trans h)

/-! ### What no command writes (R208) -/

/-- What the stages of ECHO write at most: TXBUF, PAYBUF and their lengths, the slice, the IP_ and UDP_ registers. -/
abbrev EchoFrame (s t : State) : Prop :=
  t = { s with
    tx := t.tx, txlen := t.txlen, pay := t.pay, paylen := t.paylen, slOff := t.slOff, slLen := t.slLen, ip := t.ip,
    udp := t.udp }

theorem echoFrame_of_stage {body : Body} (hmem : body ∈ echoStages) {s t : State} (h : body s = .ok t) :
    EchoFrame s t := by
  simp only [echoStages, List.mem_cons, List.not_mem_nil, or_false] at hmem
  rcases hmem with rfl | rfl | rfl | rfl | rfl | rfl | rfl
  · obtain ⟨_, _, _, rfl⟩ := ip4decBody_ok h; rfl
  · obtain ⟨_, _, rfl⟩ := sliceBody_ok h; rfl
  · obtain ⟨_, _, rfl⟩ := udpdecBody_ok h; rfl
  · rw [xformBody_ok h]; rfl
  · obtain ⟨_, _, rfl⟩ := ip4encBody_ok h; rfl
  · obtain ⟨_, rfl⟩ := optcpyBody_ok h; rfl
  · obtain ⟨_, _, rfl⟩ := udpencBody_ok h; rfl

/-- RXBUF, and what is the host's, are in `t` as in `s`. -/
abbrev KeepsReceived (s t : State) : Prop :=
  t.rx = s.rx ∧ t.hostIn = s.hostIn ∧ t.hostOut = s.hostOut ∧ t.draws = s.draws

theorem keepsReceived_of_commandBody {body : Body} (hmem : body ∈ commandBodies) {s t : State}
    (h : body s = .ok t) : KeepsReceived s t := by
  rcases List.mem_cons.1 hmem with rfl | hstage
  · obtain ⟨_, _, _, rfl⟩ := csumBody_ok h
    exact ⟨rfl, rfl, rfl, rfl⟩
  · rw [echoFrame_of_stage hstage h]
    exact ⟨rfl, rfl, rfl, rfl⟩

theorem keepsReceived_of_exec {i : Instr} {s t : State} (h : exec i s = .next t) : KeepsReceived s t := by
  refine exec_keeps (P := KeepsReceived s) (fun _ _ hu => hu) (fun _ hu => hu) (fun _ hu => hu) ?_
    ⟨rfl, rfl, rfl, rfl⟩ h
  intro body hmem u v ⟨hrx, hin, hout, hdraws⟩ hv
  obtain ⟨hrx', hin', hout', hdraws'⟩ := keepsReceived_of_commandBody hmem hv
  exact ⟨hrx'.trans hrx, hin'.trans hin, hout'.trans hout, hdraws'.trans hdraws⟩

/-- Settles O45: the three forms of a command all end with a legal code, and no body touches RXBUF or the lists. -/
theorem everyCommandEnds : Obligations.EveryCommandEnds := by
  intro i s
  obtain ⟨t, c, ht, -⟩ := exec_eq_withErr i s
  exact ⟨_, ht, err_le_four_of_exec ht, keepsReceived_of_exec ht⟩

/-! ### ERR is not read (R18) -/

theorem commandBodies_ignoreErr : ∀ body ∈ commandBodies, Body.IgnoresErr body :=
  List.forall_mem_cons.2 ⟨csumBody_ignoresErr, echoStages_ignoreErr⟩

/-- A change of the state that every stage commutes with, a run of the stages commutes with. -/
theorem runStages_commutes {f : State → State} {stages : List Body}
    (h : ∀ body ∈ stages, ∀ s, body (f s) = (body s).map f) (s : State) :
    runStages stages (f s) = (f (runStages stages s).1, (runStages stages s).2) := by
  induction stages generalizing s with
  | nil => rfl
  | cons body rest ih =>
    obtain ⟨hbody, hrest⟩ := List.forall_mem_cons.1 h
    cases hs : body s with
    | ok t =>
      have hf : body (f s) = .ok (f t) := by rw [hbody, hs]; rfl
      rw [runStages_cons_ok hf, runStages_cons_ok hs, ih hrest]
    | error e =>
      have hf : body (f s) = .error e := by rw [hbody, hs]; rfl
      rw [runStages_cons_error hf, runStages_cons_error hs]

theorem execEcho_withErr (s : State) (c : BitVec 3) : execEcho (s.withErr c) = execEcho s := by
  have hrun := runStages_commutes (f := (·.withErr c)) (fun body hmem s => echoStages_ignoreErr body hmem s c) s
  rw [execEcho, execEcho, hrun]
  rcases runStages echoStages s with ⟨t, _ | e⟩ <;> rfl

/-- Settles O46: no body reads ERR, and ECHO and SRST overwrite it. -/
theorem noCommandReadsErr : Obligations.NoCommandReadsErr := by
  intro i s c
  rcases exec_cases i with rfl | rfl | ⟨body, hmem, hexec⟩
  · rfl
  · exact execEcho_withErr s c
  · rw [hexec, hexec]
    exact standalone_withErr (commandBodies_ignoreErr body hmem) s c

/-! ### What each command may write (R12, R14, R21, R23) -/

/-- The written-by columns: what command `i` leaves of `s` in `t`. -/
abbrev KeepsUnlisted (i : Instr) (s t : State) : Prop :=
  t.rx = s.rx ∧ (i ∉ [.ip4enc, .udpenc, .optcpy, .echo] → t.tx = s.tx) ∧
    (i ∉ [.udpdec, .echo] → t.pay = s.pay) ∧ (i ≠ .srst → t.rxlen = s.rxlen) ∧
    (i ∉ [.ip4enc, .udpenc, .echo, .srst] → t.txlen = s.txlen) ∧
    (i ∉ [.udpdec, .echo, .srst] → t.paylen = s.paylen) ∧
    (i ∉ [.slice, .echo, .srst] → t.slOff = s.slOff ∧ t.slLen = s.slLen) ∧
    (i ≠ .srst → t.csSel = s.csSel ∧ t.csOff = s.csOff ∧ t.csLen = s.csLen) ∧
    (i ≠ .csum → t.csRes = s.csRes) ∧
    (i ∉ [.ip4dec, .xform, .echo] → t.ip = s.ip) ∧ (i ∉ [.udpdec, .xform, .echo] → t.udp = s.udp) ∧
    (i = .xform → t.udp.len = s.udp.len ∧
      t.ip = { s.ip with csum := t.ip.csum, src := t.ip.src, dst := t.ip.dst })

theorem keepsUnlisted_refl (i : Instr) (s : State) : KeepsUnlisted i s s := by simp [KeepsUnlisted]

theorem echoFrame_trans {s t u : State} (h : EchoFrame s t) (h' : EchoFrame t u) : EchoFrame s u :=
  h'.trans (by rw [h])

theorem echoFrame_runStages (s : State) : EchoFrame s (runStages echoStages s).1 :=
  runStages_keeps (P := EchoFrame s)
    (fun _ hmem _ _ hu hv => echoFrame_trans hu (echoFrame_of_stage hmem hv)) rfl

theorem keepsUnlisted_of_echoFrame {s t : State} (h : EchoFrame s t) : KeepsUnlisted .echo s t := by
  rw [h]; simp [KeepsUnlisted]

theorem keepsUnlisted_of_exec_echo {s t : State} (h : exec .echo s = .next t) : KeepsUnlisted .echo s t := by
  have hframe := echoFrame_runStages s
  rw [exec_echo] at h
  rcases execEcho_cases s with ⟨u, hu, hecho⟩ | ⟨u, e, hu, hecho⟩ <;> rw [hu] at hframe <;>
    obtain rfl := Host.Outcome.next.inj (hecho.symm.trans h)
  · exact keepsUnlisted_of_echoFrame (t := u) hframe
  · exact keepsUnlisted_of_echoFrame (t := { u with txlen := 0 }) (echoFrame_trans hframe rfl)

theorem keepsUnlisted_of_exec_srst {s t : State} (h : exec .srst s = .next t) : KeepsUnlisted .srst s t := by
  obtain rfl := Host.Outcome.next.inj ((exec_srst s).symm.trans h)
  simp [KeepsUnlisted]

theorem keepsUnlisted_of_standalone {i : Instr} {body : Body} {s t : State}
    (hbody : ∀ u, body s = .ok u → KeepsUnlisted i s u) (h : standalone body s = .next t) : KeepsUnlisted i s t :=
  standalone_keeps (P := KeepsUnlisted i s) (fun _ _ hu => hu) (keepsUnlisted_refl i s) hbody h

/-- Settles O48: each body writes what its command is listed for, ECHO what one of its stages writes. -/
theorem commandsWriteOnlyWhatTheTablesList : Obligations.CommandsWriteOnlyWhatTheTablesList := by
  intro i s t h
  cases i with
  | echo => exact keepsUnlisted_of_exec_echo h
  | srst => exact keepsUnlisted_of_exec_srst h
  | csum =>
    refine keepsUnlisted_of_standalone (body := csumBody) (fun u hu => ?_) h
    obtain ⟨_, _, _, rfl⟩ := csumBody_ok hu
    simp [KeepsUnlisted]
  | ip4dec =>
    refine keepsUnlisted_of_standalone (body := ip4decBody) (fun u hu => ?_) h
    obtain ⟨_, _, _, rfl⟩ := ip4decBody_ok hu
    simp [KeepsUnlisted]
  | ip4enc =>
    refine keepsUnlisted_of_standalone (body := ip4encBody) (fun u hu => ?_) h
    obtain ⟨_, _, rfl⟩ := ip4encBody_ok hu
    simp [KeepsUnlisted]
  | udpdec =>
    refine keepsUnlisted_of_standalone (body := udpdecBody) (fun u hu => ?_) h
    obtain ⟨_, _, rfl⟩ := udpdecBody_ok hu
    simp [KeepsUnlisted]
  | udpenc =>
    refine keepsUnlisted_of_standalone (body := udpencBody) (fun u hu => ?_) h
    obtain ⟨_, _, rfl⟩ := udpencBody_ok hu
    simp [KeepsUnlisted]
  | slice =>
    refine keepsUnlisted_of_standalone (body := sliceBody) (fun u hu => ?_) h
    obtain ⟨_, _, rfl⟩ := sliceBody_ok hu
    simp [KeepsUnlisted]
  | xform =>
    refine keepsUnlisted_of_standalone (body := xformBody) (fun u hu => ?_) h
    rw [xformBody_ok hu]
    simp [KeepsUnlisted, xformWith, xformIp, xformUdp]
  | optcpy =>
    refine keepsUnlisted_of_standalone (body := optcpyBody) (fun u hu => ?_) h
    obtain ⟨_, rfl⟩ := optcpyBody_ok hu
    simp [KeepsUnlisted]

/-! ### The invariant (R22, R45) -/

theorem inv_iff (s : State) : s.Inv ↔ s.buffersWf ∧ s.err.toNat ≤ 4 := by
  simp only [State.Inv, State.buffersWf, and_assoc]

theorem commandBodies_keepBuffersWf :
    ∀ body ∈ commandBodies, ∀ s t, s.buffersWf → body s = .ok t → t.buffersWf :=
  List.forall_mem_cons.2 ⟨fun _ _ => csumBody_wf, forall_mem_echoStages (fun _ _ => ip4decBody_wf)
    (fun _ _ => sliceBody_wf) (fun _ _ => udpdecBody_wf) (fun _ _ => xformBody_wf) (fun _ _ => ip4encBody_wf)
    (fun _ _ => optcpyBody_wf) (fun _ _ => udpencBody_wf)⟩

/-- Whatever free values the reset draws (R230). -/
theorem inv_hardwareReset (s : State) : (hardwareReset s).Inv :=
  ⟨wf_drawBuffer s.draws .rx, wf_drawBuffer s.draws .tx, wf_drawBuffer s.draws .pay, by simp⟩

theorem inv_of_exec {i : Instr} {s t : State} (hw : s.buffersWf) (h : exec i s = .next t) : t.Inv :=
  (inv_iff t).2 ⟨exec_keeps (P := State.buffersWf) (fun _ _ hu => hu) (fun _ hu => hu) (fun _ hu => hu)
    commandBodies_keepBuffersWf hw h, err_le_four_of_exec h⟩

theorem inv_of_issueCommand {c : BusWord} {s t : State} (hs : s.Inv) (h : issueCommand c s = .next t) : t.Inv := by
  obtain ⟨hw, -⟩ := (inv_iff s).1 hs
  cases hc : decode c with
  | ok i => exact inv_of_exec hw ((issueCommand_legal hc s).symm.trans h)
  | error e =>
    obtain rfl := Host.Outcome.next.inj ((issueCommand_illegal ⟨e, hc⟩ s).symm.trans h)
    exact (inv_iff _).2 ⟨hw, code_le_four _⟩

/-- A write to a register other than CMD leaves ERR and the buffers (R181). -/
theorem inv_writeReg {s : State} (hs : s.Inv) (v : BusWord) (r : Reg) : (writeReg s v r).Inv := by
  cases r <;> exact hs

theorem inv_of_hostWriteReg {n : Nat} {v : BusWord} {s t : State} (hs : s.Inv) (h : hostWriteReg n v s = .next t) :
    t.Inv := by
  unfold hostWriteReg at h
  split at h
  next => exact inv_of_issueCommand hs h
  next r _ _ =>
    cases h
    exact inv_writeReg hs v r
  next => cases h

theorem inv_of_hostEvent {e : HostEvent} {s t : State} (hs : s.Inv) (h : hostEvent e s = .next t) : t.Inv := by
  cases e with
  | hrd n =>
    simp only [hostEvent, hostReadReg] at h
    split at h <;> cases h
    exact hs
  | hwr n v => exact inv_of_hostWriteReg hs h
  | hbr buf off =>
    simp only [hostEvent, hostReadByte] at h
    split at h <;> cases h
    exact hs
  | hbw buf off b =>
    obtain ⟨hw, herr⟩ := (inv_iff s).1 hs
    simp only [hostEvent, hostWriteByte] at h
    split at h <;> cases h
    exact (inv_iff _).2 ⟨buffersWf_hostWrite hw buf ‹_› b, by rwa [withBuffer_err]⟩
  | reset =>
    cases h
    exact inv_hardwareReset s

/-- Settles O50: a step is idle or one of the host's transactions, and each of those keeps the invariant. -/
theorem stepKeepsTheInvariant : Obligations.StepKeepsTheInvariant := by
  intro s t hs h
  unfold step at h
  split at h
  next => cases h; exact hs
  next e rest hin => exact inv_of_hostEvent (s := { s with hostIn := rest }) hs h

end Sys2Proof.Machine

/-! PROOF. Stale bytes (20_memory.md R45): of the buffers a stage of ECHO reads only RXBUF below RXLEN and PAYBUF below
PAYLEN, and what it writes does not depend on the rest. So two runs that differ in one stale byte go the same way. -/

namespace Sys2Proof.Machine

/-! ### Two states that differ in stale bytes -/

theorem ReadAlike.readBytes_eq {m m' : Memory} {n : Nat} (h : ReadAlike m m' n) {off k : Nat} (hk : off + k ≤ n) :
    m'.readBytes off k = m.readBytes off k :=
  Memory.readBytes_congr fun i hi => (h _ (by omega)).symm

/-- The state with its three buffers replaced. -/
def State.withBuffers (s : State) (rx tx pay : Memory) : State := { s with rx := rx, tx := tx, pay := pay }

/-- The registers and the received and decoded bytes that the stages of ECHO can read are the same in both states. -/
structure SameView (s s' : State) : Prop where
  registers : s' = s.withBuffers s'.rx s'.tx s'.pay
  rx : ReadAlike s.rx s'.rx s.rxlen.toNat
  pay : ReadAlike s.pay s'.pay s.paylen.toNat

/-- From `s` to `t` and from `s'` to `t'` the same bytes were written at the same offsets, and none to RXBUF. -/
structure SameWrites (s t s' t' : State) : Prop where
  rx : t.rx = s.rx ∧ t'.rx = s'.rx
  tx : ∃ off bs, t.tx = s.tx.writeBytes off bs ∧ t'.tx = s'.tx.writeBytes off bs
  pay : ∃ off bs, t.pay = s.pay.writeBytes off bs ∧ t'.pay = s'.pay.writeBytes off bs

/-- On both states the body raises the same error, or it succeeds on both and the states it gives are related. -/
abbrev Body.EndsAlike (body : Body) (R : State → State → Prop) (s s' : State) : Prop :=
  (∃ e, body s = .error e ∧ body s' = .error e) ∨ ∃ t t', body s = .ok t ∧ body s' = .ok t' ∧ R t t'

/-- On two states of the same view the body raises the same error, or succeeds with the same writes. -/
abbrev Body.ReadsView (body : Body) : Prop :=
  ∀ s s', SameView s s' → body.EndsAlike (fun t t' => SameView t t' ∧ SameWrites s t s' t') s s'

/-! ### The stages read the view alone -/

theorem ip4decBody_readsView : Body.ReadsView ip4decBody := by
  intro s s' ⟨hreg, hrx, hpay⟩
  rw [hreg]
  rcases Nat.lt_or_ge s.rxlen.toNat 20 with h | h
  · exact .inl ⟨_, ip4decBody_truncated h, ip4decBody_truncated (s := s.withBuffers _ _ _) h⟩
  · have hbyte : s.rx.read 0 = s'.rx.read 0 := hrx 0 (by omega)
    by_cases h' : ((s.rx.read 0).extractLsb' 0 4).toNat < 5 ∨
        s.rxlen.toNat < headerBytes ((s.rx.read 0).extractLsb' 0 4)
    · exact .inl ⟨_, ip4decBody_invalid h h', ip4decBody_invalid (s := s.withBuffers _ _ _) h (hbyte ▸ h')⟩
    · have h5 := Nat.not_lt.1 (not_or.1 h').1
      have hl := Nat.not_lt.1 (not_or.1 h').2
      refine .inr ⟨_, _, ip4decBody_eq h h5 hl,
        ip4decBody_eq (s := s.withBuffers _ _ _) h (hbyte ▸ h5) (hbyte ▸ hl), ⟨?_, hrx, hpay⟩,
        ⟨rfl, rfl⟩, ⟨0, [], rfl, rfl⟩, ⟨0, [], rfl, rfl⟩⟩
      rw [← hrx.readBytes_eq h]; rfl

theorem sliceBody_readsView : Body.ReadsView sliceBody := by
  intro s s' ⟨hreg, hrx, hpay⟩
  rw [hreg]
  by_cases h : s.ip.tlen.toNat < headerBytes s.ip.ihl ∨ s.rxlen.toNat < s.ip.tlen.toNat
  · exact .inl ⟨_, sliceBody_invalid h, sliceBody_invalid (s := s.withBuffers _ _ _) h⟩
  · have h1 := Nat.not_lt.1 (not_or.1 h).1
    have h2 := Nat.not_lt.1 (not_or.1 h).2
    exact .inr ⟨_, _, sliceBody_eq h1 h2, sliceBody_eq (s := s.withBuffers _ _ _) h1 h2, ⟨rfl, hrx, hpay⟩,
      ⟨rfl, rfl⟩, ⟨0, [], rfl, rfl⟩, ⟨0, [], rfl, rfl⟩⟩

/-- The payload UDPDEC writes covers all of PAYBUF that is valid after it. -/
theorem udpdecBody_readsView : Body.ReadsView udpdecBody := by
  intro s s' ⟨hreg, hrx, hpay⟩
  rw [hreg]
  by_cases h : s.rxlen.toNat < s.slOff.toNat + s.slLen.toNat ∨ s.slLen.toNat < 8
  · exact .inl ⟨_, udpdecBody_truncated h, udpdecBody_truncated (s := s.withBuffers _ _ _) h⟩
  · have h1 := Nat.not_lt.1 (not_or.1 h).1
    have h2 := Nat.not_lt.1 (not_or.1 h).2
    have hhead : s'.rx.readBytes s.slOff.toNat 8 = s.rx.readBytes s.slOff.toNat 8 := hrx.readBytes_eq (by omega)
    have hbody : s'.rx.readBytes (s.slOff.toNat + 8) (s.slLen.toNat - 8) =
        s.rx.readBytes (s.slOff.toNat + 8) (s.slLen.toNat - 8) := hrx.readBytes_eq (by omega)
    refine .inr ⟨_, _, udpdecBody_eq h1 h2, udpdecBody_eq (s := s.withBuffers _ _ _) h1 h2, ⟨?_, hrx, ?_⟩,
      ⟨rfl, rfl⟩, ⟨0, [], rfl, rfl⟩, ⟨0, s.rx.readBytes (s.slOff.toNat + 8) (s.slLen.toNat - 8), rfl, ?_⟩⟩
    · simp only [State.withBuffers, hhead]
    · intro k hk
      have hk : k < s.slLen.toNat - 8 := by
        simp only [BitVec.toNat_ofNat] at hk; omega
      have hin := Memory.read_copyFrom_inside s.pay s.rx 0 (s.slOff.toNat + 8) _ hk
      have hin' := Memory.read_copyFrom_inside s'.pay s'.rx 0 (s.slOff.toNat + 8) _ hk
      rw [Nat.zero_add] at hin hin'
      exact hin.trans ((hrx _ (by omega)).trans hin'.symm)
    · simp only [State.withBuffers, Memory.copyFrom, hbody]

theorem xformBody_readsView : Body.ReadsView xformBody := by
  intro s s' ⟨hreg, hrx, hpay⟩
  have hpayload : s'.pay.readBytes 0 s.paylen.toNat = s.pay.readBytes 0 s.paylen.toNat :=
    hpay.readBytes_eq (Nat.zero_add s.paylen.toNat).le
  rw [hreg]
  refine .inr ⟨_, _, xformBody_eq s, xformBody_eq _, ⟨?_, hrx, hpay⟩,
    ⟨rfl, rfl⟩, ⟨0, [], rfl, rfl⟩, ⟨0, [], rfl, rfl⟩⟩
  simp only [State.withBuffers, xformWith, hpayload]

theorem ip4encBody_readsView : Body.ReadsView ip4encBody := by
  intro s s' ⟨hreg, hrx, hpay⟩
  rw [hreg]
  by_cases h : s.ip.tlen.toNat < headerBytes s.ip.ihl ∨ s.ip.tlen.toNat < 20
  · exact .inl ⟨_, ip4encBody_invalid h, ip4encBody_invalid (s := s.withBuffers _ _ _) h⟩
  · have h1 := Nat.not_lt.1 (not_or.1 h).1
    have h2 := Nat.not_lt.1 (not_or.1 h).2
    exact .inr ⟨_, _, ip4encBody_eq h1 h2, ip4encBody_eq (s := s.withBuffers _ _ _) h1 h2, ⟨rfl, hrx, hpay⟩,
      ⟨rfl, rfl⟩, ⟨0, ipImage s.ip, rfl, rfl⟩, ⟨0, [], rfl, rfl⟩⟩

theorem optcpyBody_readsView : Body.ReadsView optcpyBody := by
  intro s s' ⟨hreg, hrx, hpay⟩
  rw [hreg]
  rcases Nat.lt_or_ge s.rxlen.toNat s.slOff.toNat with h | h
  · exact .inl ⟨_, optcpyBody_truncated h, optcpyBody_truncated (s := s.withBuffers _ _ _) h⟩
  · refine .inr ⟨_, _, optcpyBody_eq h, optcpyBody_eq (s := s.withBuffers _ _ _) h, ⟨rfl, hrx, hpay⟩,
      ⟨rfl, rfl⟩, ⟨20, s.rx.readBytes 20 (s.slOff.toNat - 20), rfl, ?_⟩, ⟨0, [], rfl, rfl⟩⟩
    have hoptions : s'.rx.readBytes 20 (s.slOff.toNat - 20) = s.rx.readBytes 20 (s.slOff.toNat - 20) := by
      rcases Nat.lt_or_ge s.slOff.toNat 20 with hlt | hge
      · rw [Nat.sub_eq_zero_of_le hlt.le]; rfl
      · exact hrx.readBytes_eq (by omega)
    simp only [State.withBuffers, Memory.copyFrom, hoptions]

theorem udpencBody_readsView : Body.ReadsView udpencBody := by
  intro s s' ⟨hreg, hrx, hpay⟩
  rw [hreg]
  by_cases h : s.udp.len.toNat ≠ 8 + s.paylen.toNat ∨ Config.bufMax < s.slOff.toNat + s.udp.len.toNat
  · exact .inl ⟨_, udpencBody_invalid h, udpencBody_invalid (s := s.withBuffers _ _ _) h⟩
  · have h1 := not_not.1 (not_or.1 h).1
    have h2 := Nat.not_lt.1 (not_or.1 h).2
    have hdatagram : datagram (s.withBuffers s'.rx s'.tx s'.pay) = datagram s :=
      congrArg (udpImage s.udp ++ ·) (hpay.readBytes_eq (Nat.zero_add s.paylen.toNat).le)
    refine .inr ⟨_, _, udpencBody_eq_ok_iff.2 ⟨h1, h2, rfl⟩,
      udpencBody_eq_ok_iff (s := s.withBuffers _ _ _).2 ⟨h1, h2, rfl⟩, ⟨rfl, hrx, hpay⟩,
      ⟨rfl, rfl⟩, ⟨s.slOff.toNat, datagram s, rfl, ?_⟩, ⟨0, [], rfl, rfl⟩⟩
    rw [hdatagram]; rfl

theorem echoStages_readView : ∀ body ∈ echoStages, Body.ReadsView body :=
  forall_mem_echoStages ip4decBody_readsView sliceBody_readsView udpdecBody_readsView xformBody_readsView
    ip4encBody_readsView optcpyBody_readsView udpencBody_readsView

/-! ### One byte of one buffer -/

/-- The two states differ at most in what buffer `buf` holds at offset `a`. -/
structure DifferAt (buf : BufId) (a : Nat) (s s' : State) : Prop where
  registers : s' = s.withBuffers s'.rx s'.tx s'.pay
  others : ∀ b, b ≠ buf → s'.buffer b = s.buffer b
  bytes : ∀ k, k ≠ a → (s'.buffer buf).read k = (s.buffer buf).read k

/-- The same bytes written to two buffers that read alike at an offset leave them so. -/
theorem Memory.read_writeBytes_congr {m m' : Memory} {k : Nat} (h : m'.read k = m.read k) (off : Nat)
    (bs : List Byte) : (m'.writeBytes off bs).read k = (m.writeBytes off bs).read k := by
  by_cases hk : k < off ∨ off + bs.length ≤ k
  · rw [Memory.read_writeBytes_outside _ _ _ hk, Memory.read_writeBytes_outside _ _ _ hk, h]
  · obtain ⟨i, rfl⟩ := Nat.exists_eq_add_of_le (show off ≤ k by omega)
    have hi : i < bs.length := by omega
    rw [Memory.read_writeBytes_inside _ _ _ hi, Memory.read_writeBytes_inside _ _ _ hi]

/-- Each buffer, after the same writes, is one byte sequence written at one offset. -/
theorem SameWrites.buffer {s t s' t' : State} (h : SameWrites s t s' t') (b : BufId) :
    ∃ off bs, t.buffer b = (s.buffer b).writeBytes off bs ∧ t'.buffer b = (s'.buffer b).writeBytes off bs := by
  cases b with
  | rx => exact ⟨0, [], h.rx⟩
  | tx => exact h.tx
  | pay => exact h.pay

theorem DifferAt.of_sameWrites {buf : BufId} {a : Nat} {s t s' t' : State} (h : DifferAt buf a s s')
    (hview : SameView t t') (hw : SameWrites s t s' t') : DifferAt buf a t t' where
  registers := hview.registers
  others b hb := by
    obtain ⟨off, bs, ht, ht'⟩ := hw.buffer b
    rw [ht, ht', h.others b hb]
  bytes k hk := by
    obtain ⟨off, bs, ht, ht'⟩ := hw.buffer buf
    rw [ht, ht']
    exact Memory.read_writeBytes_congr (h.bytes k hk) off bs

/-- Runs of stages from two such states end alike: with the same error or none, in two such states. -/
theorem runStages_differAt {stages : List Body} (hstages : ∀ body ∈ stages, Body.ReadsView body) {buf : BufId}
    {a : Nat} {s s' : State} (hview : SameView s s') (h : DifferAt buf a s s') :
    DifferAt buf a (runStages stages s).1 (runStages stages s').1 ∧
      (runStages stages s').2 = (runStages stages s).2 := by
  induction stages generalizing s s' with
  | nil => exact ⟨h, rfl⟩
  | cons body rest ih =>
    obtain ⟨hbody, hrest⟩ := List.forall_mem_cons.1 hstages
    rcases hbody s s' hview with ⟨e, he, he'⟩ | ⟨t, t', ht, ht', hview', hw⟩
    · rw [runStages_cons_error he, runStages_cons_error he']
      exact ⟨h, rfl⟩
    · rw [runStages_cons_ok ht, runStages_cons_ok ht']
      exact ih hrest hview' (h.of_sameWrites hview' hw)

/-! ### Every command (R45) -/

section
variable {buf : BufId} {a : Nat} {s s' : State}

theorem DifferAt.withErr (h : DifferAt buf a s s') (c : BitVec 3) : DifferAt buf a (s.withErr c) (s'.withErr c) where
  registers := by rw [h.registers]; rfl
  others := h.others
  bytes := h.bytes

theorem DifferAt.zeroTxlen (h : DifferAt buf a s s') :
    DifferAt buf a { s with txlen := 0 } { s' with txlen := 0 } where
  registers := by rw [h.registers]; rfl
  others := h.others
  bytes := h.bytes

theorem DifferAt.zeroControl (h : DifferAt buf a s s') : DifferAt buf a (zeroControl s) (zeroControl s') where
  registers := by rw [h.registers]; rfl
  others := h.others
  bytes := h.bytes

theorem DifferAt.eq_withBuffer (h : DifferAt buf a s s') : s' = s.withBuffer buf (s'.buffer buf) := by
  cases buf with
  | rx => rw [h.registers, ← buffer_tx s', ← buffer_pay s', h.others .tx (by decide), h.others .pay (by decide)]; rfl
  | tx => rw [h.registers, ← buffer_rx s', ← buffer_pay s', h.others .rx (by decide), h.others .pay (by decide)]; rfl
  | pay => rw [h.registers, ← buffer_rx s', ← buffer_tx s', h.others .rx (by decide), h.others .tx (by decide)]; rfl

/-- A byte at or above the valid length is outside what the stages of ECHO can read. -/
theorem DifferAt.sameView (h : DifferAt buf a s s') (ha : (s.validLength buf).toNat ≤ a) : SameView s s' where
  registers := h.registers
  rx k hk := by
    by_cases hb : buf = .rx
    · subst hb
      exact (h.bytes k (by rw [validLength_rx] at ha; omega)).symm
    · exact congrArg (·.read k) (h.others .rx (Ne.symm hb)).symm
  pay k hk := by
    by_cases hb : buf = .pay
    · subst hb
      exact (h.bytes k (by rw [validLength_pay] at ha; omega)).symm
    · exact congrArg (·.read k) (h.others .pay (Ne.symm hb)).symm

theorem differAt_write (buf : BufId) (a : Nat) (b : Byte) (s : State) :
    DifferAt buf a s (s.withBuffer buf ((s.buffer buf).write a b)) where
  registers := by cases buf <;> rfl
  others b' hb := buffer_withBuffer_other s hb _
  bytes k hk := by rw [buffer_withBuffer_same, Memory.read_write_other _ hk]

/-- A standalone command whose body ends alike in both states ends in two states that differ at that byte alone. -/
theorem standalone_differAt {body : Body} {t : State} (h : DifferAt buf a s s')
    (hbody : body.EndsAlike (DifferAt buf a) s s')
    (ht : standalone body s = .next t) : ∃ t', standalone body s' = .next t' ∧ DifferAt buf a t t' := by
  rcases hbody with ⟨e, he, he'⟩ | ⟨u, u', hu, hu', hdiffer⟩
  · obtain rfl := Host.Outcome.next.inj ((standalone_error he).symm.trans ht)
    exact ⟨_, standalone_error he', h.withErr e.code⟩
  · obtain rfl := Host.Outcome.next.inj ((standalone_ok hu).symm.trans ht)
    exact ⟨_, standalone_ok hu', hdiffer.withErr okCode⟩

/-- CSUM sums bytes below the valid length of the selected buffer. -/
theorem csumBody_differAt (h : DifferAt buf a s s') (ha : (s.validLength buf).toNat ≤ a) :
    Body.EndsAlike csumBody (DifferAt buf a) s s' := by
  have hsel' : s'.csSel = s.csSel := by rw [h.registers]; rfl
  have hoff : s'.csOff = s.csOff := by rw [h.registers]; rfl
  have hlen : s'.csLen = s.csLen := by rw [h.registers]; rfl
  cases hsel : selectedBuffer s.csSel with
  | none => exact .inl ⟨_, csumBody_reserved hsel, csumBody_reserved (hsel' ▸ hsel)⟩
  | some b =>
    have hvalid : s'.validLength b = s.validLength b := by rw [h.registers]; cases b <;> rfl
    rcases Nat.lt_or_ge (s.validLength b).toNat (s.csOff.toNat + s.csLen.toNat) with hlt | hle
    · exact .inl ⟨_, csumBody_truncated hsel hlt,
        csumBody_truncated (hsel' ▸ hsel) (by rwa [hvalid, hoff, hlen])⟩
    · have hrange : (s'.buffer b).readBytes s.csOff.toNat s.csLen.toNat =
          (s.buffer b).readBytes s.csOff.toNat s.csLen.toNat := by
        by_cases hb : b = buf
        · subst hb
          exact Memory.readBytes_congr fun i hi => h.bytes _ (by omega)
        · rw [h.others b hb]
      refine .inr ⟨_, _, csumBody_eq hsel hle, csumBody_eq (hsel' ▸ hsel) (by rwa [hvalid, hoff, hlen]),
        ⟨?_, h.others, h.bytes⟩⟩
      rw [hoff, hlen, hrange, h.registers]; rfl

theorem echoStage_differAt {body : Body} (hmem : body ∈ echoStages) (h : DifferAt buf a s s')
    (hview : SameView s s') : body.EndsAlike (DifferAt buf a) s s' :=
  (echoStages_readView body hmem s s' hview).imp_right fun ⟨u, u', hu, hu', hview', hw⟩ =>
    ⟨u, u', hu, hu', h.of_sameWrites hview' hw⟩

theorem execEcho_differAt {t : State} (h : DifferAt buf a s s') (hview : SameView s s')
    (ht : execEcho s = .next t) : ∃ t', execEcho s' = .next t' ∧ DifferAt buf a t t' := by
  obtain ⟨hdiffer, hend⟩ := runStages_differAt echoStages_readView hview h
  rcases execEcho_cases s with ⟨u, hu, hecho⟩ | ⟨u, e, hu, hecho⟩ <;>
    rcases execEcho_cases s' with ⟨u', hu', hecho'⟩ | ⟨u', e', hu', hecho'⟩ <;>
    rw [hu, hu'] at hdiffer hend <;> obtain rfl := Host.Outcome.next.inj (hecho.symm.trans ht)
  · exact ⟨_, hecho', hdiffer.withErr okCode⟩
  · cases hend
  · cases hend
  · obtain rfl := Option.some.inj hend
    exact ⟨_, hecho', hdiffer.zeroTxlen.withErr _⟩

/-- A command on two states that differ in one stale byte ends in two states that differ at most there. -/
theorem exec_differAt {i : Instr} {t : State} (h : DifferAt buf a s s') (ha : (s.validLength buf).toNat ≤ a)
    (ht : exec i s = .next t) : ∃ t', exec i s' = .next t' ∧ DifferAt buf a t t' := by
  have hview := h.sameView ha
  rcases exec_cases i with rfl | rfl | ⟨body, hmem, hexec⟩
  · obtain rfl := Host.Outcome.next.inj ((exec_srst s).symm.trans ht)
    exact ⟨_, exec_srst s', h.zeroControl⟩
  · exact execEcho_differAt h hview ht
  · rw [hexec] at ht ⊢
    rcases List.mem_cons.1 hmem with rfl | hstage
    · exact standalone_differAt h (csumBody_differAt h ha) ht
    · exact standalone_differAt h (echoStage_differAt hstage h hview) ht

end

/-- Settles O49: the changed state differs from the first in one stale byte, and so do the states after. -/
theorem staleBytesAreNeverRead : Obligations.StaleBytesAreNeverRead := by
  intro i s t buf a b ha ht
  obtain ⟨t', ht', hdiffer⟩ := exec_differAt (differAt_write buf a b s) ha ht
  exact ⟨t'.buffer buf, hdiffer.eq_withBuffer ▸ ht', hdiffer.bytes⟩

end Sys2Proof.Machine

/-! PROOF. ECHO depends on the received frame alone (43_echo_pipeline.md R170): the table of R203 reads the frame below
RXLEN, and what ECHO leaves on success is the echo of the frame. -/

namespace Sys2Proof.Machine

theorem readAlike_of_rxFrame_eq {s s' : State} (h : rxFrame s = rxFrame s') :
    s.rxlen = s'.rxlen ∧ ReadAlike s.rx s'.rx s.rxlen.toNat := by
  obtain ⟨hlen, halike⟩ := readAlike_of_rxFrame_eq_txFrame (t := { s' with tx := s'.rx, txlen := s'.rxlen }) h
  exact ⟨hlen, hlen ▸ halike⟩

@[simp] theorem txFrame_withErr (s : State) (c : BitVec 3) : txFrame (s.withErr c) = txFrame s := rfl

@[simp] theorem payload_withErr (s : State) (c : BitVec 3) : payload (s.withErr c) = payload s := rfl

/-- The table of R203 reads a field only after an earlier row has tested that it lies below RXLEN. -/
theorem echoCode_eq_of_readAlike {s s' : State} (hlen : s.rxlen = s'.rxlen)
    (h : ReadAlike s.rx s'.rx s.rxlen.toNat) : echoCode s = echoCode s' := by
  unfold echoCode
  rw [← hlen]
  refine ite_congr rfl (fun _ => rfl) fun h20 => ?_
  rw [← h.byteNat_eq (by omega), ← h.headerLen_eq (by omega), ← h.field16_eq (by omega)]
  refine ite_congr rfl (fun _ => rfl) fun _ => ite_congr rfl (fun _ => rfl) fun _ => ite_congr rfl (fun _ => rfl)
    fun _ => ite_congr rfl (fun _ => rfl) fun hfit => ite_congr rfl (fun _ => rfl) fun h8 => ?_
  rw [← h.field16_eq (by omega)]

/-- The echoes of two frames that are alike are alike. -/
theorem FrameEchoes.readAlike {m m' src src' : Memory} {h n : Nat} (e : FrameEchoes m src h n)
    (e' : FrameEchoes m' src' h n) (halike : ReadAlike src src' n) (h20 : 20 ≤ h) (h8 : h + 8 ≤ n) :
    ReadAlike m m' n := by
  intro a ha
  by_cases hc : InChecksumField h a
  · have hip : field16 m 10 = field16 m' 10 := by rw [e.ipCsum, e'.ipCsum, halike.headerSum_eq (by omega)]
    have hudp : field16 m (h + 6) = field16 m' (h + 6) := by
      rw [e.udpCsum, e'.udpCsum, halike.datagramSum_eq h20 h8]
    obtain ⟨h10, h11⟩ := read_eq_of_field16_eq hip
    obtain ⟨h6, h7⟩ := read_eq_of_field16_eq hudp
    rcases hc with rfl | rfl | rfl | rfl
    exacts [h10, h11, h6, h7]
  · rw [e.read_eq ha hc, e'.read_eq ha hc, halike _ (echoOffset_lt h20 h8 ha)]

/-- The fields of a frame are read below its total length. -/
theorem ReadAlike.fields_eq {m m' : Memory} {h n : Nat} (halike : ReadAlike m m' n) (h20 : 20 ≤ h) (h8 : h + 8 ≤ n) :
    ipFieldsOf m = ipFieldsOf m' ∧ udpFieldsOf m h = udpFieldsOf m' h := by
  rw [← ipFields_readBytes, ← ipFields_readBytes, ← udpFields_readBytes, ← udpFields_readBytes,
    halike.readBytes_eq (off := 0) (by omega), halike.readBytes_eq (off := h) h8]
  exact ⟨rfl, rfl⟩

/-- What a successful ECHO leaves in the registers it writes and in the valid bytes, from two frames that are alike. -/
theorem echoed_eq_of_readAlike {s s' : State} (hacc : EchoAccepts s) (hacc' : EchoAccepts s')
    (halike : ReadAlike s.rx s'.rx s.rxlen.toNat) :
    txFrame (echoed s) = txFrame (echoed s') ∧ payload (echoed s) = payload (echoed s') ∧
      (echoed s).ip = (echoed s').ip ∧ (echoed s).udp = (echoed s').udp ∧ (echoed s).slOff = (echoed s').slOff ∧
      (echoed s).slLen = (echoed s').slLen := by
  have h20 := twenty_le_headerLen hacc
  have ⟨hrxlen, _, _, h8, hfit, _⟩ := hacc
  have hhead : headerLen s.rx = headerLen s'.rx := halike.headerLen_eq (by omega)
  have htlen : field16 s.rx 2 = field16 s'.rx 2 := halike.field16_eq (by omega)
  have hframe : ReadAlike s.rx s'.rx (field16 s.rx 2) := fun a ha => halike a (by omega)
  have e' := frameEchoes_echoed hacc'
  rw [← hhead, ← htlen] at e'
  have htx := (frameEchoes_echoed hacc).readAlike e' hframe h20 h8
  obtain ⟨hip, hudp⟩ := htx.fields_eq h20 h8
  refine ⟨?_, ?_, ?_, ?_, BitVec.eq_of_toNat_eq ?_, BitVec.eq_of_toNat_eq ?_⟩
  · rw [txFrame, txFrame, toNat_txlen_echoed, toNat_txlen_echoed, ← htlen]
    exact (htx.readBytes_eq (Nat.zero_add _).le).symm
  · rw [payload, payload, toNat_paylen_echoed, toNat_paylen_echoed, ← hhead, ← htlen]
    refine Memory.readBytes_congr fun k hk => ?_
    rw [Nat.zero_add, read_pay_echoed s hk, read_pay_echoed s' (by rwa [← hhead, ← htlen]), ← hhead,
      hframe _ (by omega)]
  · rw [ip_echoed_eq_ipFieldsOf hacc, ip_echoed_eq_ipFieldsOf hacc', hip]
  · rw [udp_echoed_eq_udpFieldsOf, udp_echoed_eq_udpFieldsOf, ← hhead, hudp]
  · rw [toNat_slOff_echoed, toNat_slOff_echoed, hhead]
  · rw [toNat_slLen_echoed, toNat_slLen_echoed, hhead, htlen]

/-- Settles O44: the code is the table's, an error leaves TXLEN 0, and a success leaves the echo of the frame. -/
theorem echoDependsOnTheFrameAlone : Obligations.EchoDependsOnTheFrameAlone := by
  intro s s' hframes
  obtain ⟨hlen, halike⟩ := readAlike_of_rxFrame_eq hframes
  obtain ⟨t, ht, hcode, htxlen, -⟩ := echoOutcomeFollowsTheFrame s
  obtain ⟨t', ht', hcode', htxlen', -⟩ := echoOutcomeFollowsTheFrame s'
  have herr : t.err = t'.err :=
    BitVec.eq_of_toNat_eq (by rw [hcode, hcode', echoCode_eq_of_readAlike hlen halike])
  refine ⟨t, t', ht, ht', herr, fun hne => (htxlen hne).trans (htxlen' (herr ▸ hne)).symm, fun hok => ?_⟩
  have hacc := (exec_echo_err_eq_zero_iff ht).1 hok
  have hacc' := (exec_echo_err_eq_zero_iff ht').1 (herr ▸ hok)
  obtain rfl := Host.Outcome.next.inj ((exec_echo_of_accepts hacc).symm.trans ht)
  obtain rfl := Host.Outcome.next.inj ((exec_echo_of_accepts hacc').symm.trans ht')
  simpa only [txFrame_withErr, payload_withErr, withErr_ip, withErr_udp, withErr_slOff, withErr_slLen] using
    echoed_eq_of_readAlike hacc hacc' halike

end Sys2Proof.Machine

/-! PROOF. The step and the host's transactions (44_host_access.md): the command a step runs (R184), which transactions
are refused (R185), what a read returns (R180, R182), and the hardware reset (70_reset_and_hazards.md R230). -/

namespace Sys2Proof.Machine

/-! ### The step -/

theorem step_of_nil {s : State} (h : s.hostIn = []) : step s = .next s := by
  rw [step, h]

theorem step_of_cons {s : State} {e : HostEvent} {rest : List HostEvent} (h : s.hostIn = e :: rest) :
    step s = hostEvent e { s with hostIn := rest } := by
  rw [step, h]

/-- Settles O8: the two branches of the step. -/
theorem stepTakesTheNextTransaction : Obligations.StepTakesTheNextTransaction := fun _ =>
  ⟨step_of_nil, fun _ _ => step_of_cons⟩

/-- Settles O6: the transaction issues the command that its word spells. -/
theorem stepRunsTheIssuedCommand : Obligations.StepRunsTheIssuedCommand := by
  intro s c rest h
  rw [step_of_cons h, hostEvent_writeCmd]
  exact ⟨fun i hi => issueCommand_legal hi _, fun e he => issueCommand_illegal ⟨e, he⟩ _⟩

theorem tableWord_toNat (c : BusWord) : tableWord 32 c.toNat = c := by
  rw [tableWord, Nat.mod_eq_of_lt c.isLt, BitVec.ofNat_toNat, BitVec.setWidth_eq]

/-- Settles O7: the placed transaction is the command line of `i`. -/
theorem placedWordRunsNext : Obligations.PlacedWordRunsNext := by
  intro s i
  rw [step_of_cons (rest := s.hostIn) rfl, tableWord_toNat]
  exact hostEvent_commandLine i s

/-! ### Refusals (R185) -/

theorem regOfNumber_eq_none_iff (n : Nat) : Reg.ofNumber n = none ↔ ReservedNumber n := by
  unfold Reg.ofNumber
  split
  case h_28 =>
    simp only [imp_false, ReservedNumber, true_iff] at *
    omega
  all_goals simp [ReservedNumber]

theorem exists_regOfNumber {n : Nat} (h : ¬ ReservedNumber n) : ∃ r, Reg.ofNumber n = some r :=
  Option.ne_none_iff_exists'.1 fun hnone => h ((regOfNumber_eq_none_iff n).1 hnone)

theorem exists_next_of_issueCommand (c : BusWord) (s : State) : ∃ t, issueCommand c s = .next t := by
  cases hc : decode c with
  | ok i =>
    obtain ⟨t, ht, -⟩ := everyCommandEnds i s
    exact ⟨t, (issueCommand_legal hc s).trans ht⟩
  | error e => exact ⟨_, issueCommand_illegal ⟨e, hc⟩ s⟩

theorem hostEvent_hrd {n : Nat} {r : Reg} (hr : Reg.ofNumber n = some r) (s : State) :
    hostEvent (.hrd n) s = .next (s.withReply (.reg (readReg s r))) := by
  rw [hostEvent, hostReadReg, hr]; rfl

theorem hostEvent_hbr {off : Nat} (h : off < 65535) (buf : BufId) (s : State) :
    hostEvent (.hbr buf off) s = .next (s.withReply (.byte ((s.buffer buf).read off))) := if_pos h

theorem exists_next_of_hwr {n : Nat} {r : Reg} (hr : Reg.ofNumber n = some r) (v : BusWord) (s : State) :
    ∃ t, hostEvent (.hwr n v) s = .next t := by
  by_cases hc : r = .cmd
  · subst hc
    have hcmd : hostEvent (.hwr n v) s = issueCommand v s := by rw [hostEvent, hostWriteReg, hr]
    rw [hcmd]
    exact exists_next_of_issueCommand v s
  · exact ⟨_, hostEvent_hwr hr hc v s⟩

theorem refused_of_reservedNumber {n : Nat} (h : ReservedNumber n) (v : BusWord) (s : State) :
    hostEvent (.hrd n) s = .refused (.reservedRegister n) ∧
      hostEvent (.hwr n v) s = .refused (.reservedRegister n) := by
  have hnone := (regOfNumber_eq_none_iff n).2 h
  exact ⟨by rw [hostEvent, hostReadReg, hnone], by rw [hostEvent, hostWriteReg, hnone]⟩

theorem refused_of_offset {off : Nat} (h : 65535 ≤ off) (buf : BufId) (b : Byte) (s : State) :
    hostEvent (.hbr buf off) s = .refused (.offsetOutsideBuffer buf off) ∧
      hostEvent (.hbw buf off b) s = .refused (.offsetOutsideBuffer buf off) :=
  ⟨if_neg (Nat.not_lt.2 h), if_neg (Nat.not_lt.2 h)⟩

/-- Settles O10: a number is reserved when it names no register; each transaction that exists has its equation. -/
theorem onlyReservedTransactionsAreRefused : Obligations.OnlyReservedTransactionsAreRefused := by
  refine fun s e => ⟨?_, ?_, fun hnumber hoffset => ?_⟩
  · rintro n hn (rfl | ⟨v, rfl⟩)
    · exact (refused_of_reservedNumber hn 0 s).1
    · exact (refused_of_reservedNumber hn v s).2
  · rintro buf off hoff (rfl | ⟨b, rfl⟩)
    · exact (refused_of_offset hoff buf 0 s).1
    · exact (refused_of_offset hoff buf b s).2
  · cases e with
    | hrd n =>
      obtain ⟨r, hr⟩ := exists_regOfNumber (hnumber n (.inl rfl))
      exact ⟨_, hostEvent_hrd hr s⟩
    | hwr n v =>
      obtain ⟨r, hr⟩ := exists_regOfNumber (hnumber n (.inr ⟨v, rfl⟩))
      exact exists_next_of_hwr hr v s
    | hbr buf off => exact ⟨_, hostEvent_hbr (hoffset buf off (.inl rfl)) buf s⟩
    | hbw buf off b => exact ⟨_, hostEvent_hbw (hoffset buf off (.inr ⟨b, rfl⟩)) buf b s⟩
    | reset => exact ⟨_, rfl⟩

/-! ### What a read returns (R180, R182) -/

/-- Each row of the register map is a register and the value it reads as. -/
theorem readReg_of_mem_registerValues {s : State} {n v : Nat} (h : (n, v) ∈ registerValues s) :
    ∃ r, Reg.ofNumber n = some r ∧ readReg s r = BitVec.ofNat 32 v := by
  fin_cases h <;> exact ⟨_, rfl, by simp [readReg]⟩

/-- Settles O11: a row of the register map and a byte of a buffer, each by the equation of its read. -/
theorem hostReadsReturnTheValue : Obligations.HostReadsReturnTheValue := by
  refine fun s => ⟨fun n v h => ?_, fun buf off h => hostEvent_hbr h buf s⟩
  obtain ⟨r, hr, hv⟩ := readReg_of_mem_registerValues h
  rw [hostEvent_hrd hr, hv]; rfl

/-! ### Reset (R30, R230) -/

theorem afterReset_hardwareReset (s : State) : AfterReset (hardwareReset s) :=
  ⟨rfl, rfl, rfl, rfl, rfl, rfl, rfl, rfl, rfl⟩

/-- Settles O15: the step is the hardware reset, whose buffers are drawn in canonical form. -/
theorem hardwareResetZeroesTheNineRegisters : Obligations.HardwareResetZeroesTheNineRegisters := fun s rest h =>
  ⟨hardwareReset { s with hostIn := rest }, step_of_cons h, afterReset_hardwareReset _, inv_hardwareReset _, rfl, rfl⟩

/-- Settles O16: nine registers are 0 by definition, and no buffer has a byte listed. -/
theorem resetStateHasTheResetValues : Obligations.ResetStateHasTheResetValues :=
  ⟨⟨rfl, rfl, rfl, rfl, rfl, rfl, rfl, rfl, rfl⟩, (inv_iff State.reset).2 ⟨buffersWf_reset, by decide⟩⟩

/-- Settles O17: RXLEN is 0, so IP4DEC has fewer than 20 bytes, and so has the first stage of ECHO. -/
theorem nothingDecodesBeforeAFrameIsLoaded : Obligations.NothingDecodesBeforeAFrameIsLoaded := by
  rintro s ⟨-, hrxlen, -⟩
  have h20 : s.rxlen.toNat < 20 := by rw [hrxlen]; decide
  exact ⟨standalone_error (ip4decBody_truncated h20), exec_echo_of_raisesAt (raisesAt_ip4dec_truncated h20)⟩

end Sys2Proof.Machine

/-! PROOF. Transactions carried out one after another by the step: LDRX, RDTX and CSUMR (30_encoding.md R67). -/

namespace Sys2Proof.Machine

/-! ### Runs of steps -/

/-- `k` steps of the machine, over its own type of states. -/
def runSteps (k : Nat) (s : State) : Answer := Host.Core.run core k s

theorem run_core (k : Nat) (s : State) : Host.Core.run core k s = runSteps k s := rfl

theorem runSteps_zero (s : State) : runSteps 0 s = .next s := rfl

theorem run_succ_of_step (M : Host.Core) {s t : M.State} (h : M.step s = .next t) (k : Nat) :
    M.run (k + 1) s = M.run k t := by
  rw [Host.Core.run, h]

theorem runSteps_of_cons {s t : State} {e : HostEvent} {rest : List HostEvent} (k : Nat) (h : s.hostIn = e :: rest)
    (he : hostEvent e { s with hostIn := rest } = .next t) : runSteps (k + 1) s = runSteps k t :=
  run_succ_of_step core ((step_of_cons h).trans he) k

/-! ### LDRX and RDTX (R67, R187) -/

/-- The byte writes of a delivery are one write of bytes (R67). -/
theorem runSteps_writeLines_rx (k : Nat) {s : State} {off : Nat} {bs : List Byte} {rest : List HostEvent}
    (hoff : off + bs.length ≤ 65535) (h : s.hostIn = writeLines .rx off bs ++ rest) :
    runSteps (bs.length + k) s = runSteps k { s with hostIn := rest, rx := s.rx.writeBytes off bs } := by
  induction bs generalizing s off with
  | nil =>
    obtain rfl : s.hostIn = rest := h
    rw [List.length_nil, Nat.zero_add]; rfl
  | cons b bs ih =>
    rw [List.length_cons] at hoff
    rw [List.length_cons, Nat.add_right_comm, runSteps_of_cons _ h (hostEvent_hbw (by omega) _ _ _),
      ih (off := off + 1) (by omega) rfl]
    rfl

/-- The byte reads of a collection return the bytes in order (R67). -/
theorem runSteps_readLines_tx (k : Nat) {s : State} {off n : Nat} {rest : List HostEvent} (hoff : off + n ≤ 65535)
    (h : s.hostIn = readLines .tx off n ++ rest) :
    runSteps (n + k) s =
      runSteps k { s with hostIn := rest, hostOut := s.hostOut ++ (s.tx.readBytes off n).map .byte } := by
  induction n generalizing s off with
  | zero =>
    obtain rfl : s.hostIn = rest := h
    rw [Nat.zero_add, Memory.readBytes, List.map_nil, List.append_nil]
  | succ n ih =>
    rw [Nat.add_right_comm, runSteps_of_cons _ h (hostEvent_hbr (by omega) _ _), ih (off := off + 1) (by omega) rfl]
    simp [State.withReply, Memory.readBytes]

/-- Settles O14: the byte transactions are one write or one read, after or before the transaction of the length. -/
theorem framesAreDeliveredAndCollected : Obligations.FramesAreDeliveredAndCollected := by
  refine ⟨fun s bs rest hlen hin => ⟨s.rx.writeBytes 0 bs, ?_, Memory.readBytes_writeBytes_same _ _ _, fun a ha =>
    Memory.read_writeBytes_outside _ _ _ (.inr (by rwa [Nat.zero_add]))⟩, fun s rest hin => ?_⟩
  · have hlow : (BitVec.ofNat 32 bs.length).setWidth 16 = BitVec.ofNat 16 bs.length :=
      BitVec.setWidth_ofNat_of_le (by decide) _
    rw [ldrx, List.append_assoc, List.singleton_append] at hin
    rw [run_core, runSteps_writeLines_rx 1 (by rwa [Nat.zero_add]) hin,
      runSteps_of_cons 0 rfl (hostEvent_hwr (r := .rxlen) rfl (by decide) _ _), runSteps_zero, ← hlow]
    rfl
  · have hmax : 0 + s.txlen.toNat ≤ 65535 := by have := s.txlen.isLt; omega
    rw [run_core, runSteps_of_cons _ hin (hostEvent_hrd (r := .txlen) rfl _)]
    refine (runSteps_readLines_tx 0 hmax rfl).trans ?_
    rw [runSteps_zero, txFrame, List.append_cons]
    rfl

/-! ### CSUMR (R67, R100) -/

/-- The three operand registers as CSUMR sets them, each to the low bits of its value (R16). -/
def State.withCsumOperands (s : State) (buf : BufId) (off len : BusWord) : State :=
  { s with csSel := BitVec.ofNat 2 buf.number, csOff := BitVec.ofNat 16 (off.toNat % 65536),
           csLen := BitVec.ofNat 16 (len.toNat % 65536) }

theorem runSteps_csumr {s : State} {buf : BufId} {off len : BusWord} {rest : List HostEvent}
    (h : s.hostIn = csumr buf off len ++ rest) {u : State}
    (hu : exec .csum (State.withCsumOperands { s with hostIn := .hrd 0x01 :: .hrd 0x0A :: rest } buf off len) =
      .next u) (hin : u.hostIn = .hrd 0x01 :: .hrd 0x0A :: rest) :
    runSteps 6 s = .next { u with
      hostIn := rest, hostOut := u.hostOut ++ [.reg (u.err.setWidth 32), .reg (u.csRes.setWidth 32)] } := by
  have hbuf : (BitVec.ofNat 32 buf.number).setWidth 2 = BitVec.ofNat 2 buf.number := by cases buf <;> rfl
  have hlow (v : BusWord) : v.setWidth 16 = BitVec.ofNat 16 (v.toNat % 65536) := by
    apply BitVec.eq_of_toNat_eq; simp
  rw [runSteps_of_cons 5 h (hostEvent_hwr (r := .csSel) rfl (by decide) _ _),
    runSteps_of_cons 4 rfl (hostEvent_hwr (r := .csOff) rfl (by decide) _ _),
    runSteps_of_cons 3 rfl (hostEvent_hwr (r := .csLen) rfl (by decide) _ _)]
  simp only [writeReg, hbuf, hlow]
  rw [runSteps_of_cons 2 rfl ((hostEvent_commandLine .csum _).trans hu),
    runSteps_of_cons 1 hin (hostEvent_readErr _), runSteps_of_cons 0 rfl (hostEvent_hrd (r := .csRes) rfl _),
    runSteps_zero]
  simp [State.withReply, readReg]

/-- Settles O54: the six transactions set the operands, run CSUM with its known outcomes, and read ERR and CS_RES. -/
theorem csumrReturnsErrAndTheChecksum : Obligations.CsumrReturnsErrAndTheChecksum := by
  intro s buf off len rest h
  let v := State.withCsumOperands { s with hostIn := .hrd 0x01 :: .hrd 0x0A :: rest } buf off len
  have hoff : v.csOff.toNat = off.toNat % 65536 := by
    simp only [v, State.withCsumOperands, BitVec.toNat_ofNat]; omega
  have hlen : v.csLen.toNat = len.toNat % 65536 := by
    simp only [v, State.withCsumOperands, BitVec.toNat_ofNat]; omega
  have hsel : (v.csSel = 0 ∧ buf = .rx) ∨ (v.csSel = 1 ∧ buf = .tx) ∨ (v.csSel = 2 ∧ buf = .pay) := by
    cases buf <;> simp [v, State.withCsumOperands, BufId.number]
  have hvalid : v.validLength buf = s.validLength buf := by cases buf <;> rfl
  have hbuffer : v.buffer buf = s.buffer buf := by cases buf <;> rfl
  obtain ⟨htrunc, hsum⟩ := (csumSumsTheSelectedRange v).2 buf hsel
  rw [hoff, hlen, hvalid] at htrunc hsum
  rw [hbuffer] at hsum
  refine ⟨fun hlt => runSteps_csumr h (htrunc hlt) rfl, fun hle => ?_⟩
  intro c
  have hc : (BitVec.ofNat 16 c).setWidth 32 = BitVec.ofNat 32 c := by
    have hlt : c < 2 ^ 16 := onesComplement_lt _
    apply BitVec.eq_of_toNat_eq
    simp only [BitVec.toNat_setWidth, BitVec.toNat_ofNat]
    omega
  rw [← hc]
  exact runSteps_csumr h (hsum hle) rfl

end Sys2Proof.Machine

/-! PROOF. Round trips: the command words (30_encoding.md R65), the checksum of words that hold their own checksum
(40_checksum.md R98), and IP4DEC then IP4ENC (41_ipv4_codec.md R117). -/

namespace Sys2Proof.Machine

/-! ### Command words (R61, R62, R65) -/

/-- Settles O2: two of the words are `encode` of a command, and two are illegal, each for its own reason. -/
theorem sampleWordsDecode : Obligations.SampleWordsDecode :=
  ⟨decode_encode .csum, decode_encode .echo, decode_encode .srst, by decide, by decide⟩

/-- Settles O3: a word decodes to a command exactly when it is the command's word. -/
theorem decodeAndEncodeAgree : Obligations.DecodeAndEncodeAgree :=
  ⟨fun i _ => decode_encode i, fun c i h => ((decode_eq_ok_iff c i).1 h).symm⟩

/-! ### The checksum as a function of the sum (R98) -/

theorem wordSum_eq_of_perm {ws vs : List Word} (h : ws.Perm vs) : wordSum ws = wordSum vs :=
  (h.map BitVec.toNat).sum_eq

theorem wordSum_filter_ne_zero (ws : List Word) : wordSum (ws.filter (· ≠ 0)) = wordSum ws := by
  induction ws with
  | nil => rfl
  | cons w ws ih =>
    by_cases hw : w = 0
    · rw [List.filter_cons_of_neg (by simp [hw]), ih, wordSum_cons, hw]
      exact (Nat.zero_add _).symm
    · rw [List.filter_cons_of_pos (by simpa using hw), wordSum_cons, ih, wordSum_cons]

theorem wordSum_eq_zero_iff (ws : List Word) : wordSum ws = 0 ↔ ∀ w ∈ ws, w = 0 := by
  induction ws with
  | nil => simp
  | cons w ws ih =>
    have hw : w.toNat = 0 ↔ w = 0 := by rw [← BitVec.toNat_inj]; rfl
    simp only [wordSum_cons, Nat.add_eq_zero_iff, ih, hw, List.forall_mem_cons]

theorem onesComplement_eq_max_iff (n : Nat) : onesComplement n = 0xFFFF ↔ n = 0 := by
  unfold onesComplement; split <;> omega

theorem onesComplement_eq_zero_iff (n : Nat) : onesComplement n = 0 ↔ 0 < n ∧ 0xFFFF ∣ n := by
  unfold onesComplement; split <;> omega

/-- The checksum brings the sum up to a positive multiple of 0xFFFF. -/
theorem onesComplement_add_onesComplement (n : Nat) : onesComplement (n + onesComplement n) = 0 := by
  rw [onesComplement_eq_zero_iff]
  unfold onesComplement
  split <;> omega

/-- 0xFFFF in place of a checksum of 0 leaves the sum a positive multiple of 0xFFFF (R163). -/
theorem onesComplement_add_max {n : Nat} (h : onesComplement n = 0) : onesComplement (n + 0xFFFF) = 0 := by
  rw [onesComplement_eq_zero_iff] at h ⊢
  omega

section
variable {ws : List Word} (hlen : ws.length ≤ 65537)
include hlen

theorem checksum_eq_iff (c : Word) : checksum ws = c ↔ onesComplement (wordSum ws) = c.toNat := by
  rw [← toNat_checksum hlen, BitVec.toNat_inj]

theorem checksum_eq_zero_iff : checksum ws = 0 ↔ onesComplement (wordSum ws) = 0 := checksum_eq_iff hlen 0

/-- Whatever word stands in place of a zero word is added to the sum. -/
theorem checksum_replace_zero_eq_zero_iff {before after : List Word} (hws : ws = before ++ 0 :: after) (c : Word) :
    checksum (before ++ c :: after) = 0 ↔ onesComplement (wordSum ws + c.toNat) = 0 := by
  have hlen' : (before ++ c :: after).length ≤ 65537 := by simpa [hws] using hlen
  have hsum : wordSum (before ++ c :: after) = wordSum ws + c.toNat := by
    simp only [hws, wordSum_append, wordSum_cons, BitVec.ofNat_eq_ofNat, BitVec.toNat_ofNat, Nat.zero_mod]
    omega
  rw [checksum_eq_zero_iff hlen', hsum]

end

/-- Settles O24: each clause is one about the complement of the sum. -/
theorem checksumValidatesToZero : Obligations.ChecksumValidatesToZero := by
  intro ws hlen
  refine ⟨fun ws' hlen' h => checksum_eq_of_wordSum_eq hlen' hlen ?_, ?_, ?_,
    fun before after hws => ⟨?_, fun hzero => ?_⟩⟩
  · rcases h with hperm | hfilter
    · exact wordSum_eq_of_perm hperm
    · rw [← wordSum_filter_ne_zero ws', hfilter, wordSum_filter_ne_zero]
  · exact (checksum_eq_iff hlen _).trans ((onesComplement_eq_max_iff _).trans (wordSum_eq_zero_iff ws))
  · exact (checksum_eq_zero_iff hlen).trans (onesComplement_eq_zero_iff _)
  · rw [checksum_replace_zero_eq_zero_iff hlen hws, toNat_checksum hlen]
    exact onesComplement_add_onesComplement _
  · exact (checksum_replace_zero_eq_zero_iff hlen hws _).2
      (onesComplement_add_max ((checksum_eq_zero_iff hlen).1 hzero))

/-! ### IP4DEC then IP4ENC (R117) -/

/-- The image of the decoded fields is the received header, whatever TXBUF held. -/
theorem readBytes_writeBytes_received (tx rx : Memory) :
    (tx.writeBytes 0 (ipImage (ipFieldsOf rx))).readBytes 0 20 = rx.readBytes 0 20 :=
  (Memory.readBytes_writeBytes_same tx 0 _).trans (readBytes_eq_ipImage rx).symm

/-- Settles O31: the registers hold the received fields, so IP4ENC writes the received header. -/
theorem ip4DecodeEncodeRoundTrip : Obligations.Ip4DecodeEncodeRoundTrip := by
  intro s t ht herr hlen
  obtain ⟨u, hu, rfl⟩ := standalone_succeeding ht herr
  obtain ⟨-, h5, -, rfl⟩ := ip4decBody_eq_ok_iff.1 hu
  have hihl : (ipFieldsOf s.rx).ihl.toNat * 4 = headerLen s.rx := headerBytes_ipFieldsOf s.rx
  have h20 : 20 ≤ (ipFieldsOf s.rx).tlen.toNat := by
    have hle : (ipFieldsOf s.rx).ihl.toNat * 4 ≤ (ipFieldsOf s.rx).tlen.toNat := hlen
    rw [hihl, headerLen] at hle
    omega
  have hread := readBytes_writeBytes_received s.tx s.rx
  refine ⟨_, standalone_ok (ip4encBody_eq hlen h20), rfl, hread, toNat_ipFieldsOf_tlen s.rx, fun _ htlen hrxlen => ?_⟩
  rw [txFrame_withErr, txFrame, rxFrame, hrxlen]
  exact (congrArg _ ((toNat_ipFieldsOf_tlen s.rx).trans htlen)).trans hread

end Sys2Proof.Machine

/-! PROOF. The pseudo-instructions (30_encoding.md R67): their expansions, and what ECHOX and ECHOSEQ do and return. A
command with its `RD ERR` is its stage, with one more value returned. -/

namespace Sys2Proof.Machine

/-! ### The expansions -/

theorem writeLines_eq_map_range (buf : BufId) (off : Nat) (bs : List Byte) :
    writeLines buf off bs = (List.range bs.length).map fun k => .hbw buf (off + k) (bs.getD k 0) := by
  induction bs generalizing off with
  | nil => rfl
  | cons b bs ih =>
    rw [writeLines, ih, List.length_cons, List.range_succ_eq_map, List.map_cons, List.map_map]
    simp [Function.comp_def, Nat.add_assoc, Nat.add_comm 1]

theorem readLines_eq_map_range (buf : BufId) (off n : Nat) :
    readLines buf off n = (List.range n).map fun k => .hbr buf (off + k) := by
  induction n generalizing off with
  | zero => rfl
  | succ n ih =>
    rw [readLines, ih, List.range_succ_eq_map, List.map_cons, List.map_map]
    simp [Function.comp_def, Nat.add_assoc, Nat.add_comm 1]

/-- Settles O51: the byte lines by their offsets, the command lines by their words. -/
theorem pseudoInstructionsExpandAsTheTable : Obligations.PseudoInstructionsExpandAsTheTable := by
  refine ⟨fun bs => ?_, fun n => ?_, fun _ _ => ⟨rfl, rfl, rfl⟩, rfl, rfl⟩
  · simp only [ldrx, ldpay, writeLines_eq_map_range, Nat.zero_add, and_self]
  · simp only [rdtx, readLines_eq_map_range, Nat.zero_add]

/-! ### Values returned to the host -/

/-- The state with more values returned to the host. -/
def State.withReplies (s : State) (rs : List HostReply) : State := { s with hostOut := s.hostOut ++ rs }

theorem withReplies_cons (s : State) (r : HostReply) (rs : List HostReply) :
    s.withReplies (r :: rs) = (s.withReply r).withReplies rs := by
  simp [State.withReplies, State.withReply]

theorem withReplies_nil (s : State) : s.withReplies [] = s := by
  simp [State.withReplies]

theorem withReply_withReplies (s : State) (rs : List HostReply) (r : HostReply) :
    (s.withReplies rs).withReply r = s.withReplies (rs ++ [r]) := by
  simp [State.withReplies, State.withReply]

theorem echoStages_ignoreReplies : ∀ body ∈ echoStages, Body.IgnoresReplies body :=
  forall_mem_echoStages ip4decBody_ignoresReplies sliceBody_ignoresReplies udpdecBody_ignoresReplies
    xformBody_ignoresReplies ip4encBody_ignoresReplies optcpyBody_ignoresReplies udpencBody_ignoresReplies

theorem error_withReplies {body : Body} (h : body.IgnoresReplies) {s : State} {e : CoreError}
    (he : body s = .error e) (rs : List HostReply) : body (s.withReplies rs) = .error e := by
  induction rs generalizing s with
  | nil => rwa [withReplies_nil]
  | cons r rs ih =>
    rw [withReplies_cons]
    refine ih ?_
    rw [h, he]; rfl

/-! ### Commands with `RD ERR` after each -/

theorem checkedLines_append (is js : List Instr) : checkedLines (is ++ js) = checkedLines is ++ checkedLines js := by
  induction is with
  | nil => rfl
  | cons i is ih => rw [List.cons_append, checkedLines, ih]; rfl

theorem runLines_command {i : Instr} {s t : State} (h : exec i s = .next t) (rest : List HostLine) :
    runLines (.transact (commandLine i) :: rest) s = runLines rest t := by
  rw [runLines_transact, hostEvent_commandLine, h, onNext_next]

/-- A command that leaves ERR 0 returns 0, and the host goes on. -/
theorem runLines_checked_ok {i : Instr} {s t : State} (h : exec i s = .next (t.withErr okCode))
    (rest : List HostLine) : runLines (.transact (commandLine i) :: .checkErr :: rest) s =
      runLines rest ((t.withErr okCode).withReply (.reg 0)) := by
  rw [runLines_command h, runLines_checkErr]
  exact if_pos rfl

/-- A command that raises returns the code, and the host stops. -/
theorem runLines_checked_error {i : Instr} {s t : State} {e : CoreError} (h : exec i s = .next (t.withErr e.code))
    (rest : List HostLine) : runLines (.transact (commandLine i) :: .checkErr :: rest) s =
      .next ((t.withErr e.code).withReply (.reg (e.code.setWidth 32))) := by
  rw [runLines_command h, runLines_checkErr]
  exact if_neg (code_ne_ok e)

/-- While no stage raises, each command returns 0 and the host goes on. -/
theorem runLines_checkedLines_of_none {is : List Instr} {stages : List Body}
    (h : List.Forall₂ RunsStage is stages) (hreplies : ∀ body ∈ stages, Body.IgnoresReplies body) {s u : State}
    (hrun : runStages stages s = (u, none)) (rest : List HostLine) :
    runLines (checkedLines is ++ rest) (s.withErr okCode) =
      runLines rest ((u.withErr okCode).withReplies (List.replicate is.length (.reg 0))) := by
  induction h generalizing s u with
  | nil =>
    obtain rfl := runStages_nil_eq_none_iff.1 hrun
    exact congrArg (runLines rest) (withReplies_nil _).symm
  | @cons i body is stages hi _ ih =>
    obtain ⟨hexec, hignores⟩ := hi
    obtain ⟨-, hrest⟩ := List.forall_mem_cons.1 hreplies
    obtain ⟨t, ht, hrun⟩ := runStages_cons_eq_none_iff.1 hrun
    have hcommand : exec i (s.withErr okCode) = .next (t.withErr okCode) := by
      rw [hexec, standalone_withErr hignores, standalone_ok ht]
    have hrun' : runStages stages (t.withReply (.reg 0)) = (u.withReply (.reg 0), none) := by
      rw [runStages_commutes (f := (·.withReply (.reg 0))) (fun body hmem s => hrest body hmem s _), hrun]
    calc runLines (checkedLines (i :: is) ++ rest) (s.withErr okCode)
        = runLines (checkedLines is ++ rest) ((t.withErr okCode).withReply (.reg 0)) := runLines_checked_ok hcommand _
      _ = runLines rest (((u.withReply (.reg 0)).withErr okCode).withReplies (List.replicate is.length (.reg 0))) :=
          ih hrest hrun'
      _ = _ := by rw [List.length_cons, List.replicate_succ, withReplies_cons]; rfl

/-- Where a stage raises, its command returns the code and the host stops. -/
theorem runLines_checkedLines_of_raisesAt {is : List Instr} {stages : List Body}
    (h : List.Forall₂ RunsStage is stages) (hreplies : ∀ body ∈ stages, Body.IgnoresReplies body) {s u : State}
    {k : Nat} {e : CoreError} (hraises : RaisesAt stages s k u e) :
    runLines (checkedLines is) (s.withErr okCode) = .next ((u.withErr e.code).withReplies
      (List.replicate k (.reg 0) ++ [.reg (e.code.setWidth 32)])) := by
  obtain ⟨hfirst, body, hk, hbody⟩ := hraises
  obtain ⟨hlt, rfl⟩ := List.getElem?_eq_some_iff.1 hk
  have hlt' : k < is.length := h.length_eq ▸ hlt
  obtain ⟨hexec, hignores⟩ : RunsStage is[k] stages[k] := h.get hlt' hlt
  have hlines : checkedLines is = checkedLines (is.take k) ++
      (.transact (commandLine is[k]) :: .checkErr :: checkedLines (is.drop (k + 1))) := by
    rw [← checkedLines, ← checkedLines_append, ← List.drop_eq_getElem_cons, List.take_append_drop]
  have hlength : (is.take k).length = k := List.length_take_of_le hlt'.le
  have herror := error_withReplies (hreplies _ (List.getElem_mem hlt)) hbody (List.replicate k (.reg 0))
  have hcommand : exec is[k] ((u.withErr okCode).withReplies (List.replicate k (.reg 0))) =
      .next ((u.withReplies (List.replicate k (.reg 0))).withErr e.code) := by
    rw [hexec]
    exact (standalone_withErr hignores _ okCode).trans (standalone_error herror)
  rw [hlines, runLines_checkedLines_of_none (List.forall₂_take k h)
    (fun body hmem => hreplies body (List.mem_of_mem_take hmem)) hfirst, hlength, runLines_checked_error hcommand,
    ← withReply_withReplies]
  rfl

/-! ### ECHOSEQ -/

/-- The first command does not read ERR. -/
theorem runLines_echoseq_withErr (s : State) (c : BitVec 3) : runLines echoseq (s.withErr c) = runLines echoseq s := by
  have hfirst : exec .ip4dec (s.withErr c) = exec .ip4dec s := noCommandReadsErr .ip4dec s c
  simp only [echoseq, echoCommands, checkedLines, runLines_transact, hostEvent_commandLine, hfirst]

/-- No stage writes the list of replies. -/
theorem hostOut_runStages_echoStages (s : State) : (runStages echoStages s).1.hostOut = s.hostOut := by
  rw [echoFrame_runStages s]

/-- Settles O52: ECHOSEQ returns 0 for each stage that raises nothing, and the code of the one that raises. -/
theorem echoseqRunsItsCommandsAndReadsErr : Obligations.EchoseqRunsItsCommandsAndReadsErr := by
  intro s
  rw [runCommands_echoCommands, ← runLines_echoseq_withErr s okCode]
  have hout := hostOut_runStages_echoStages s
  refine ⟨_, rfl, ?_⟩
  rcases echoRow_cases s with ⟨hacc, -, -⟩ | ⟨k, u, e, -, hstage, hraises⟩
  · have hrun := runStages_echoStages_eq_none_iff.2 ⟨hacc, rfl⟩
    have hlines := runLines_checkedLines_of_none echoCommands_runStages echoStages_ignoreReplies hrun []
    rw [hrun] at hout ⊢
    rw [List.append_nil] at hlines
    refine hlines.trans ?_
    rw [← hout]
    rfl
  · have hrun := runStages_of_raisesAt hraises
    have hlines := runLines_checkedLines_of_raisesAt echoCommands_runStages echoStages_ignoreReplies hraises
    rw [hrun] at hout ⊢
    refine hlines.trans ?_
    have herr : ¬ (endWithErr (u, some e)).err = 0 := code_ne_ok e
    rw [if_neg herr, hstage, Nat.add_sub_cancel, ← hout]
    rfl

/-! ### ECHOX -/

theorem withReply_withReply (s : State) (r r' : HostReply) :
    (s.withReply r).withReply r' = s.withReplies [r, r'] := by
  rw [withReplies_cons, withReplies_cons, withReplies_nil]

/-- Settles O53: XFORM keeps what the encoders test, and each encoder raises or goes on. -/
theorem echoxTransformsAndEncodes : Obligations.EchoxTransformsAndEncodes := by
  intro s
  let x := (xformWith Config.udpZeroSubst s).withErr okCode
  have hxform : runLines echox s = runLines (checkedLines [.ip4enc, .udpenc]) x := runLines_command (exec_xform s) _
  refine ⟨x, exec_xform s, fun hshort => ?_, fun hihl h20 => ?_⟩
  · have hraise : exec .ip4enc x = .next (x.withErr CoreError.invalidLength.code) :=
      standalone_error (ip4encBody_invalid (s := x) hshort)
    exact hxform.trans (runLines_checked_error hraise _)
  · let y : State := { x with tx := x.tx.writeBytes 0 (ipImage x.ip), txlen := x.ip.tlen }
    have hok : exec .ip4enc x = .next (y.withErr okCode) := standalone_ok (ip4encBody_eq (s := x) hihl h20)
    have hip4enc := hxform.trans (runLines_checked_ok hok (checkedLines [.udpenc]))
    refine ⟨y.withErr okCode, hok, rfl, fun hbad => ?_, fun hlen hmax => ?_⟩
    · have hraise : exec .udpenc ((y.withErr okCode).withReply (.reg 0)) =
          .next ((y.withReply (.reg 0)).withErr CoreError.invalidLength.code) :=
        standalone_error (udpencBody_invalid (s := (y.withErr okCode).withReply _) hbad)
      refine (hip4enc.trans (runLines_checked_error hraise _)).trans ?_
      exact congrArg Host.Outcome.next (withReply_withReply (y.withErr 3) _ _)
    · obtain ⟨u, hu⟩ : ∃ u, udpencBody (y.withErr okCode) = .ok u :=
        ⟨_, udpencBody_eq (s := y.withErr okCode) hlen hmax⟩
      have hudpenc : exec .udpenc (y.withErr okCode) = .next (u.withErr okCode) := standalone_ok hu
      have hreply : exec .udpenc ((y.withErr okCode).withReply (.reg 0)) =
          .next ((u.withReply (.reg 0)).withErr okCode) :=
        standalone_withReply udpencBody_ignoresReplies (.reg 0) hudpenc
      obtain ⟨-, -, hout, -⟩ := keepsReceived_of_exec hudpenc
      refine ⟨_, hudpenc, rfl, (hip4enc.trans (runLines_checked_ok hreply _)).trans ?_⟩
      rw [show s.hostOut = u.hostOut from hout.symm]
      exact congrArg Host.Outcome.next (withReply_withReply (u.withErr okCode) _ _)

end Sys2Proof.Machine
